-- ==== Sys2Proof/Word.lean ====
section
/-! DEFINITION. The bit-vector types of the EMP3 serial controller (spec/00_scope.md R7, R10): every quantity is unsigned. -/

namespace Sys2Proof

/-- One byte of the serial bus (R15). -/
abbrev Byte := BitVec 8

/-- A register value: `REG_WIDTH` = 16 bits (R7, R41). -/
abbrev Word := BitVec 16

/-- A data address: `ADDR_WIDTH` = 16 bits (R7, R57). -/
abbrev Addr := BitVec 16

/-- The 32-bit byte count of a command word (R103) and the width of a response value (R13). -/
abbrev Count := BitVec 32

/-- The 64-bit command word (R100). -/
abbrev CommandWord := BitVec 64

end Sys2Proof
end

