-- ==== Sys2Proof/Syntax.lean ====
section
/-! DEFINITION. The register names (R40), the command set (R110) and a command as the host hands it over (R100). -/

namespace Sys2Proof

/-- The sixteen mirror registers, in the order of R40: the place in the list is the register's index. -/
inductive Reg where
  | mode | status | bass | clockConfig | decodeTime | sampleRate | wramData | wramAddr
  | header0 | header1 | auxInAddr | volume | auxCtrl0 | auxCtrl1 | auxCtrl2 | auxCtrl3
  deriving DecidableEq, Repr

/-- The twenty commands, one constructor per row of R110 (spec/opcode_table.json).
XOUT and PLAY carry the payload list that travels with their word (R100, R111). -/
inductive Instr where
  /-- SELCMD, R142 -/
  | selcmd (active : Bool)
  /-- SELDATA, R143 -/
  | seldata (active : Bool)
  /-- QCMD, R144 -/
  | qcmd
  /-- QDATA, R145 -/
  | qdata
  /-- QREADY, R147 -/
  | qready
  /-- LUPD, R161 -/
  | lupd (r : Reg)
  /-- LASGN, R163 -/
  | lasgn (r : Reg) (v : Word)
  /-- LSET, R164 -/
  | lset (r : Reg) (m : Word)
  /-- LCLR, R165 -/
  | lclr (r : Reg) (m : Word)
  /-- COMMIT, R168 -/
  | commit (r : Reg)
  /-- RDCACHE, R170 -/
  | rdcache (r : Reg)
  /-- SETTLE, R195 -/
  | settle (r : Reg)
  /-- HRST, R214 -/
  | hrst
  /-- SRST, R223 -/
  | srst
  /-- INIT, R231 -/
  | init
  /-- VALID, R201 -/
  | valid (a : Addr)
  /-- XOUT, R242 -/
  | xout (a : Addr) (n : Count) (p : List Byte)
  /-- XIN, R246 -/
  | xin (a : Addr) (n : Count)
  /-- PAD, R257 -/
  | pad (a : Addr) (n : Count)
  /-- PLAY, R266 -/
  | play (n : Count) (p : List Byte)
  deriving DecidableEq, Repr

/-- A command as the host hands it to the block: the 64-bit word and its payload byte list (R100). -/
structure Command where
  word : CommandWord
  payload : List Byte
  deriving DecidableEq, Repr

end Sys2Proof
end

