-- ==== Sys2Proof/Config.lean ====
section
/-! DEFINITION. The configuration record `cfg` of R7, as plain data, the constants the source fixes (R8),
the reference test configuration REF of spec/95_test_vectors.md, and the free value of a received byte (R15). -/

namespace Sys2Proof

/-- `POLL_US` (R7): the poll increment of the two reset paths. -/
def Config.pollUs : Nat := 3
/-- `SOFT_RESET_BUDGET_US` (R7). -/
def Config.softResetBudgetUs : Nat := 1000
/-- `CHUNK` (R7): the flow-control boundary and the padding chunk. -/
def Config.chunk : Nat := 32
/-- `PLAY_PAD_BYTES` (R7). -/
def Config.playPadBytes : Nat := 2052
/-- `DRAIN_US` (R7). -/
def Config.drainUs : Nat := 50000
/-- `SETTLE_MARGIN_US` (R7). -/
def Config.settleMarginUs : Nat := 1

/-- FREE VALUE: the byte received in the `k`-th exchange since block reset, where the environment's list holds
none for it. Nothing constrains it (R15: "the environment (the chip) supplies any byte"). Assumption log 3. -/
opaque Config.rxByte : Nat → Byte

/-- One half-open forbidden range `[lo, hi)` of data addresses (R7, R75). -/
structure AddrRange where
  lo : Nat
  hi : Nat
  deriving DecidableEq, Repr

/-- `XTAL_RATE` (R7) as data: the rate of the listed fields, and `base + step * freq` for the others.
Every function of the 11-bit field is such a table. Assumption log 2. -/
structure XtalRates where
  listed : List (BitVec 11 × Nat)
  base : Nat
  step : Nat
  deriving DecidableEq, Repr

/-- `XTAL_RATE(f)`: what the table gives for a field. -/
def XtalRates.rate (t : XtalRates) (f : BitVec 11) : Nat := (t.listed.lookup f).getD (t.base + t.step * f.toNat)

/-- `MULT_RATE` (R7) as data: the rate of the listed `(mult, add, xtal)`, and `xtal * num[mult] div den` for the
others. Assumption log 2. -/
structure MultRates where
  listed : List ((BitVec 3 × BitVec 2 × Nat) × Nat)
  num : Vector Nat 8
  den : Nat
  deriving DecidableEq, Repr

/-- `MULT_RATE(m, a, x)`: what the table gives for the two fields and a crystal rate. -/
def MultRates.rate (t : MultRates) (m : BitVec 3) (a : BitVec 2) (x : Nat) : Nat :=
  (t.listed.lookup (m, a, x)).getD (x * t.num[m.toFin] / t.den)

/-- `INIT_VALUE[r]` (R7) for the four registers it is defined for. -/
structure InitValues where
  mode : Word
  bass : Word
  clockConfig : Word
  volume : Word
  deriving DecidableEq, Repr

/-- The configuration record of R7: the fields it leaves OPEN. Vectors are in the order of R40. -/
structure Cfg where
  /-- `WRITABLE[r]` -/
  writable : Vector Bool 16
  /-- `RESET_VALUE[r]` -/
  resetValue : Vector Word 16
  /-- `NOMINAL_CYCLES[r]` -/
  nominalCycles : Vector Nat 16
  /-- `XTAL_RATE` -/
  xtal : XtalRates
  /-- `MULT_RATE` -/
  mult : MultRates
  /-- `MODE_RESET_BIT` -/
  modeResetBit : Fin 16
  /-- `INIT_VALUE` -/
  initValue : InitValues
  /-- `FORBIDDEN` -/
  forbidden : Vector AddrRange 4
  /-- `OP_CMD_WRITE` -/
  opCmdWrite : Byte
  /-- `OP_CMD_READ` -/
  opCmdRead : Byte
  /-- `OP_DATA_WRITE` -/
  opDataWrite : Byte
  /-- `OP_DATA_READ` -/
  opDataRead : Byte
  /-- `HDR_ADDR`: the addresses whose header byte is not the default `a[7:0]` (R125). Assumption log 2. -/
  hdrAddr : List (Addr × Byte)
  /-- `TX_FILL` -/
  txFill : Byte
  /-- `FILL_ADDR` -/
  fillAddr : Word
  /-- `PLAYBACK_ADDR` -/
  playbackAddr : Addr
  /-- `PAD_ADDR` -/
  padAddr : Addr
  /-- `HARD_RESET_LOW_US` -/
  hardResetLowUs : Nat
  deriving DecidableEq, Repr

/-- The reference test configuration REF (spec/95_test_vectors.md). It is not a claim about the chip (R7): it is
the configuration of `State.reset` and of the tests, and no statement rests on it. Assumption log 1. -/
def Cfg.ref : Cfg where
  writable := #v[true, true, true, true, true, true, true, true, false, false, true, true, true, true, true, true]
  resetValue := #v[0x4800#16, 0#16, 0#16, 0#16, 0#16, 0#16, 0#16, 0#16, 0#16, 0#16, 0#16, 0#16, 0#16, 0#16, 0#16, 0#16]
  nominalCycles := #v[80, 80, 80, 1200, 100, 450, 100, 100, 80, 80, 210, 80, 80, 80, 80, 80]
  xtal := ⟨[(0#11, 12288000)], 8000000, 4000⟩
  mult := ⟨[], #v[2, 4, 5, 6, 7, 8, 9, 10], 2⟩
  modeResetBit := 2
  initValue := ⟨0x4800#16, 0x0000#16, 0x6000#16, 0x2020#16⟩
  forbidden := #v[⟨0x0000, 0x1800⟩, ⟨0x1880, 0x5800⟩, ⟨0x5880, 0x8040⟩, ⟨0x8500, 0xC000⟩]
  opCmdWrite := 0x02#8
  opCmdRead := 0x03#8
  opDataWrite := 0x02#8
  opDataRead := 0x03#8
  hdrAddr := []
  txFill := 0x00#8
  fillAddr := 0x1E06#16
  playbackAddr := 0xC000#16
  padAddr := 0xC000#16
  hardResetLowUs := 1000

end Sys2Proof
end

