-- ==== Sys2Proof/WellFormed.lean ====
section
/-! DEFINITION. Well-formed commands (R111) and well-formed configurations (R9), as checks that compute. -/

namespace Sys2Proof

/-- R111: an XOUT or PLAY is well formed only if its payload has as many bytes as its `LEN` says; every other
command has no payload to check. -/
def Instr.wf : Instr → Bool
  | .selcmd _ | .seldata _ | .qcmd | .qdata | .qready => true
  | .lupd _ | .lasgn _ _ | .lset _ _ | .lclr _ _ | .commit _ | .rdcache _ | .settle _ => true
  | .hrst | .srst | .init | .valid _ | .xin _ _ | .pad _ _ => true
  | .xout _ n p => p.length == n.toNat
  | .play n p => p.length == n.toNat

/-- `p` holds of every number below `n`; the check stops at the first one it fails at. -/
def allBelow : Nat → (Nat → Bool) → Bool
  | 0, _ => true
  | n + 1, p => p n && allBelow n p

/-- R9 on `XTAL_RATE`, exactly: `XTAL_RATE(f) >= 1` for every field. A base of at least 1 settles the fields that are
not listed; without one each field is tried. -/
def XtalRates.wf (t : XtalRates) : Bool :=
  t.listed.all (fun e => decide (1 ≤ t.rate e.1)) &&
    (decide (1 ≤ t.base) || allBelow 2048 fun f => decide (1 ≤ t.rate (BitVec.ofNat 11 f)))

/-- R9 on `MULT_RATE`, exactly: `MULT_RATE(m, a, x) >= 1` for every `m`, `a` and every `x >= 1`. The formula gives 0
only for the crystal rates up to `(den - 1) / num[m]`, and those are tried. -/
def MultRates.wf (t : MultRates) : Bool :=
  decide (1 ≤ t.den) && t.num.toList.all (fun n => decide (1 ≤ n)) &&
    t.listed.all (fun e => e.1.2.2 == 0 || decide (1 ≤ t.rate e.1.1 e.1.2.1 e.1.2.2)) &&
    allBelow 8 fun m => allBelow ((t.den - 1) / t.num[(BitVec.ofNat 3 m).toFin]) fun x => allBelow 4 fun a =>
      decide (1 ≤ t.rate (BitVec.ofNat 3 m) (BitVec.ofNat 2 a) (x + 1))

/-- R9: `lo_i <= hi_i <= 0x10000`. -/
def AddrRange.wf (g : AddrRange) : Bool :=
  decide (g.lo ≤ g.hi) && decide (g.hi ≤ 0x10000)

/-- R9, whole: indexes 0, 2, 3 and 11 are MODE, BASS, CLOCK_CONFIG and VOLUME; 8 and 9 are HEADER0 and HEADER1. -/
def Cfg.wf (c : Cfg) : Bool :=
  c.xtal.wf && c.mult.wf &&
  c.nominalCycles.toList.all (fun n => decide (n ≤ 4294)) &&
  (c.writable[0] && c.writable[2] && c.writable[3] && c.writable[11]) &&
  (!c.writable[8] && !c.writable[9]) &&
  decide (1000 ≤ c.hardResetLowUs) &&
  c.forbidden.toList.all AddrRange.wf

end Sys2Proof
end

