-- ==== Sys2Proof/Decode.lean ====
section
/-! DEFINITION. The command word: its fields (R101), its seven formats (R102), the opcode map (R110), the total
decoder (R112 to R114), the encoder, the host's reading of a row of spec/opcode_table.json, and the assembly of R130 to R132. -/

namespace Sys2Proof

/-! ## Register indexes (R40, R103) -/

/-- The registers in index order (R40). -/
def Reg.all : Vector Reg 16 :=
  #v[.mode, .status, .bass, .clockConfig, .decodeTime, .sampleRate, .wramData, .wramAddr,
     .header0, .header1, .auxInAddr, .volume, .auxCtrl0, .auxCtrl1, .auxCtrl2, .auxCtrl3]

/-- The index of a register: its place in the list of R40. -/
def Reg.index : Reg → Fin 16
  | .mode => 0 | .status => 1 | .bass => 2 | .clockConfig => 3
  | .decodeTime => 4 | .sampleRate => 5 | .wramData => 6 | .wramAddr => 7
  | .header0 => 8 | .header1 => 9 | .auxInAddr => 10 | .volume => 11
  | .auxCtrl0 => 12 | .auxCtrl1 => 13 | .auxCtrl2 => 14 | .auxCtrl3 => 15

/-- The four bits of the `REG` field that name a register. -/
def Reg.bits (r : Reg) : BitVec 4 := BitVec.ofFin r.index

/-- The register a `REG` field names: all sixteen values name one (R76). -/
def Reg.ofBits (b : BitVec 4) : Reg := Reg.all[b.toFin]

/-! ## Formats and opcodes -/

/-- The seven formats of R102. -/
inductive Format where
  | n | s | r | rv | a | al | l
  deriving DecidableEq, Repr

/-- The column "must be zero" of R102, as (lowest bit, width) of each piece. -/
def Format.zeroFields : Format → List (Nat × Nat)
  | .n  => [(0, 56)]
  | .s  => [(1, 55)]
  | .r  => [(52, 4), (0, 48)]
  | .rv => [(52, 4), (16, 32)]
  | .a  => [(48, 8), (0, 32)]
  | .al => [(48, 8)]
  | .l  => [(32, 24)]

/-- The column "mask (checked bits)" of R102. -/
def Format.mask : Format → CommandWord
  | .n  => 0xFFFFFFFFFFFFFFFF#64
  | .s  => 0xFFFFFFFFFFFFFFFE#64
  | .r  => 0xFFF0FFFFFFFFFFFF#64
  | .rv => 0xFFF0FFFFFFFF0000#64
  | .a  => 0xFFFF0000FFFFFFFF#64
  | .al => 0xFFFF000000000000#64
  | .l  => 0xFFFFFFFF00000000#64

/-- The twenty rows of R110. -/
inductive Opcode where
  | selcmd | seldata | qcmd | qdata | qready
  | lupd | lasgn | lset | lclr | commit | rdcache | settle
  | hrst | srst | init
  | valid | xout | xin | pad | play
  deriving DecidableEq, Repr

/-- All rows of R110, in its order. -/
def Opcode.all : List Opcode :=
  [.selcmd, .seldata, .qcmd, .qdata, .qready,
   .lupd, .lasgn, .lset, .lclr, .commit, .rdcache, .settle,
   .hrst, .srst, .init, .valid, .xout, .xin, .pad, .play]

/-- The column `OPC` of R110. -/
def Opcode.code : Opcode → Byte
  | .selcmd => 0x01#8 | .seldata => 0x02#8 | .qcmd => 0x03#8 | .qdata => 0x04#8 | .qready => 0x05#8
  | .lupd => 0x10#8 | .lasgn => 0x11#8 | .lset => 0x12#8 | .lclr => 0x13#8 | .commit => 0x14#8
  | .rdcache => 0x15#8 | .settle => 0x16#8
  | .hrst => 0x20#8 | .srst => 0x21#8 | .init => 0x22#8
  | .valid => 0x30#8 | .xout => 0x31#8 | .xin => 0x32#8 | .pad => 0x33#8 | .play => 0x34#8

/-- The column "format" of R110. -/
def Opcode.format : Opcode → Format
  | .selcmd | .seldata => .s
  | .qcmd | .qdata | .qready | .hrst | .srst | .init => .n
  | .lupd | .commit | .rdcache | .settle => .r
  | .lasgn | .lset | .lclr => .rv
  | .valid => .a
  | .xout | .xin | .pad => .al
  | .play => .l

/-- XOUT and PLAY come with a payload, every other command with none (R111). -/
def Opcode.takesPayload : Opcode → Bool
  | .xout | .play => true
  | .selcmd | .seldata | .qcmd | .qdata | .qready => false
  | .lupd | .lasgn | .lset | .lclr | .commit | .rdcache | .settle => false
  | .hrst | .srst | .init | .valid | .xin | .pad => false

/-- The row with a given opcode byte, if there is one (R113). -/
def Opcode.ofCode (b : Byte) : Option Opcode := Opcode.all.find? fun o => o.code == b

/-! ## Fields of the word (R101) -/

/-- `OPC`, bits 63:56. -/
def opcField (w : CommandWord) : Byte := w.extractLsb' 56 8
/-- The reserved field, bits 55:52. -/
def reservedField (w : CommandWord) : BitVec 4 := w.extractLsb' 52 4
/-- `REG`, bits 51:48. -/
def regField (w : CommandWord) : BitVec 4 := w.extractLsb' 48 4
/-- `ADDR`, bits 47:32. -/
def addrField (w : CommandWord) : Addr := w.extractLsb' 32 16
/-- `LEN`, bits 31:0. -/
def lenField (w : CommandWord) : Count := w.extractLsb' 0 32
/-- `VAL`, bits 15:0. -/
def valField (w : CommandWord) : Word := w.extractLsb' 0 16
/-- `ACT`, bit 0. -/
def actField (w : CommandWord) : Bool := w.getLsbD 0

/-! ## Decoding -/

/-- Why a command is ill formed (R112). All four end in the same response, ILLEGAL_COMMAND. -/
inductive DecodeError where
  /-- `OPC` is not one of the twenty opcodes (R113) -/
  | reservedOpcode
  /-- a reserved bit of the format is 1 (R102) -/
  | reservedBits
  /-- the payload of an XOUT or PLAY does not have `LEN` bytes (R111) -/
  | payloadLength
  /-- a command that takes no payload came with one (R111) -/
  | payloadNotAllowed
  deriving DecidableEq, Repr

/-- Every bit the format reserves is 0 (R102). -/
def reservedBitsZero (f : Format) (w : CommandWord) : Bool :=
  f.zeroFields.all fun z => w.extractLsb' z.1 z.2 == 0

/-- The instruction of a row, with its operands assembled from the word's fields (R103). -/
def operands (o : Opcode) (w : CommandWord) (p : List Byte) : Instr :=
  match o with
  | .selcmd => .selcmd (actField w)
  | .seldata => .seldata (actField w)
  | .qcmd => .qcmd
  | .qdata => .qdata
  | .qready => .qready
  | .lupd => .lupd (Reg.ofBits (regField w))
  | .lasgn => .lasgn (Reg.ofBits (regField w)) (valField w)
  | .lset => .lset (Reg.ofBits (regField w)) (valField w)
  | .lclr => .lclr (Reg.ofBits (regField w)) (valField w)
  | .commit => .commit (Reg.ofBits (regField w))
  | .rdcache => .rdcache (Reg.ofBits (regField w))
  | .settle => .settle (Reg.ofBits (regField w))
  | .hrst => .hrst
  | .srst => .srst
  | .init => .init
  | .valid => .valid (addrField w)
  | .xout => .xout (addrField w) (lenField w) p
  | .xin => .xin (addrField w) (lenField w)
  | .pad => .pad (addrField w) (lenField w)
  | .play => .play (lenField w) p

/-- The check of R111 on the payload that came with the word. -/
def checkPayload (o : Opcode) (w : CommandWord) (p : List Byte) : Except DecodeError Unit :=
  if o.takesPayload then
    if p.length = (lenField w).toNat then .ok () else .error .payloadLength
  else if p.isEmpty then .ok () else .error .payloadNotAllowed

/-- The decoder, total on every word and payload (R112, R114). -/
def decode (c : Command) : Except DecodeError Instr :=
  match Opcode.ofCode (opcField c.word) with
  | none => .error .reservedOpcode
  | some o =>
    if reservedBitsZero o.format c.word then
      match checkPayload o c.word c.payload with
      | .ok _ => .ok (operands o c.word c.payload)
      | .error e => .error e
    else .error .reservedBits

/-! ## Encoding -/

/-- The row an instruction belongs to. -/
def Instr.opcode : Instr → Opcode
  | .selcmd _ => .selcmd | .seldata _ => .seldata
  | .qcmd => .qcmd | .qdata => .qdata | .qready => .qready
  | .lupd _ => .lupd | .lasgn _ _ => .lasgn | .lset _ _ => .lset | .lclr _ _ => .lclr
  | .commit _ => .commit | .rdcache _ => .rdcache | .settle _ => .settle
  | .hrst => .hrst | .srst => .srst | .init => .init
  | .valid _ => .valid | .xout _ _ _ => .xout | .xin _ _ => .xin | .pad _ _ => .pad | .play _ _ => .play

/-- A word from its fields: `OPC`, four zeros, `REG`, `ADDR` and the low half (R101). -/
def layout (opc : Byte) (reg : BitVec 4) (addr : Addr) (low : BitVec 32) : CommandWord :=
  opc ++ (0#4 ++ (reg ++ (addr ++ low)))

/-- The low half of an RV word: `VAL` under sixteen zeros. -/
def lowVal (v : Word) : BitVec 32 := 0#16 ++ v

/-- The low half of an S word: `ACT` under thirty-one zeros. -/
def lowAct (active : Bool) : BitVec 32 := 0#31 ++ BitVec.ofBool active

/-- The word of an instruction (R101, R102, R110). -/
def Instr.word (i : Instr) : CommandWord :=
  match i with
  | .selcmd b | .seldata b => layout i.opcode.code 0 0 (lowAct b)
  | .qcmd | .qdata | .qready | .hrst | .srst | .init => layout i.opcode.code 0 0 0
  | .lupd r | .commit r | .rdcache r | .settle r => layout i.opcode.code r.bits 0 0
  | .lasgn r v | .lset r v | .lclr r v => layout i.opcode.code r.bits 0 (lowVal v)
  | .valid a => layout i.opcode.code 0 a 0
  | .xout a n _ | .xin a n | .pad a n => layout i.opcode.code 0 a n
  | .play n _ => layout i.opcode.code 0 0 n

/-- The payload that travels with an instruction's word (R100). -/
def Instr.payload : Instr → List Byte
  | .xout _ _ p => p
  | .play _ p => p
  | .selcmd _ | .seldata _ | .qcmd | .qdata | .qready => []
  | .lupd _ | .lasgn _ _ | .lset _ _ | .lclr _ _ | .commit _ | .rdcache _ | .settle _ => []
  | .hrst | .srst | .init | .valid _ | .xin _ _ | .pad _ _ => []

/-- The encoder: the word and payload the host hands over for an instruction. -/
def encode (i : Instr) : Command := ⟨i.word, i.payload⟩

/-! ## The host's reading of the opcode table -/

/-- The command whose word has the `nbits` low bits of `w` (the table gives every row 64). The payload of a row
that takes one is the part of the command the table gives no bits: zeros, as many as `LEN` says. -/
def tableCommand (nbits w : Nat) : Command :=
  let word : CommandWord := BitVec.ofNat 64 (w % 2 ^ nbits)
  match Opcode.ofCode (opcField word) with
  | some o => ⟨word, if o.takesPayload then List.replicate (lenField word).toNat 0#8 else []⟩
  | none => ⟨word, []⟩

/-- What the decoder reads from a row's word, numbered as spec/opcode_table.json numbers it. -/
def decodeTableWord (nbits w : Nat) : Option Instr :=
  match decode (tableCommand nbits w) with
  | .ok i => some i
  | .error _ => none

/-! ## Assembly (R130 to R132) -/

/-- The names of R40 and R131. -/
def Reg.name : Reg → String
  | .mode => "MODE" | .status => "STATUS" | .bass => "BASS" | .clockConfig => "CLOCK_CONFIG"
  | .decodeTime => "DECODE_TIME" | .sampleRate => "SAMPLE_RATE" | .wramData => "WRAM_DATA" | .wramAddr => "WRAM_ADDR"
  | .header0 => "HEADER0" | .header1 => "HEADER1" | .auxInAddr => "AUX_IN_ADDR" | .volume => "VOLUME"
  | .auxCtrl0 => "AUX_CTRL0" | .auxCtrl1 => "AUX_CTRL1" | .auxCtrl2 => "AUX_CTRL2" | .auxCtrl3 => "AUX_CTRL3"

/-- The mnemonics of R110. -/
def Opcode.mnemonic : Opcode → String
  | .selcmd => "SELCMD" | .seldata => "SELDATA" | .qcmd => "QCMD" | .qdata => "QDATA" | .qready => "QREADY"
  | .lupd => "LUPD" | .lasgn => "LASGN" | .lset => "LSET" | .lclr => "LCLR" | .commit => "COMMIT"
  | .rdcache => "RDCACHE" | .settle => "SETTLE"
  | .hrst => "HRST" | .srst => "SRST" | .init => "INIT"
  | .valid => "VALID" | .xout => "XOUT" | .xin => "XIN" | .pad => "PAD" | .play => "PLAY"

/-- A payload in braces, as R130 spells it. -/
def asmPayload (p : List Byte) : String :=
  " ".append (String.singleton (Char.ofNat 123)) ++ " ".intercalate (p.map fun b => toString b.toNat) ++
    String.singleton (Char.ofNat 125)

/-- The operands of an instruction in assembly (R130), numbers in decimal. -/
def Instr.asmOperands : Instr → String
  | .selcmd b | .seldata b => if b then " 1" else " 0"
  | .qcmd | .qdata | .qready | .hrst | .srst | .init => ""
  | .lupd r | .commit r | .rdcache r | .settle r => " " ++ r.name
  | .lasgn r v | .lset r v | .lclr r v => " " ++ r.name ++ ", " ++ toString v.toNat
  | .valid a => " " ++ toString a.toNat
  | .xout a n p => " " ++ toString a.toNat ++ ", " ++ toString n.toNat ++ asmPayload p
  | .xin a n | .pad a n => " " ++ toString a.toNat ++ ", " ++ toString n.toNat
  | .play n p => " " ++ toString n.toNat ++ asmPayload p

/-- One line of assembly (R130). -/
def Instr.asm (i : Instr) : String := i.opcode.mnemonic ++ i.asmOperands

/-- The pseudo-instructions of R132. -/
inductive Pseudo where
  | wrreg (r : Reg) (v : Word)
  | rdreg (r : Reg)
  | setbits (r : Reg) (m : Word)
  | clrbits (r : Reg) (m : Word)
  | deselect
  deriving DecidableEq, Repr

/-- Their expansions: two commands, with two responses (R132). -/
def Pseudo.expand : Pseudo → List Instr
  | .wrreg r v => [.lasgn r v, .commit r]
  | .rdreg r => [.lupd r, .rdcache r]
  | .setbits r m => [.lset r m, .commit r]
  | .clrbits r m => [.lclr r m, .commit r]
  | .deselect => [.selcmd false, .seldata false]

end Sys2Proof
end

