-- ==== Sys2Proof/Machine/State.lean ====
section
/-! DEFINITION. The state of the block (spec/10_state.md), the events of its trace (R14), block reset (R60), and
the reasons a step can stop. -/

namespace Sys2Proof.Machine

/-! ## Lines and events -/

/-- The level of a pin: 0 or 1 (R14). -/
inductive Level where
  | low | high
  deriving DecidableEq, Repr

/-- The three output pins (R14, R289). -/
inductive Pin where
  | xcs | xdcs | xreset
  deriving DecidableEq, Repr

/-- The one kind of diagnostic, ARBITRATION_CONFLICT (R148). -/
inductive DiagKind where
  | arbitrationConflict
  deriving DecidableEq, Repr

/-- The event kinds of R14. -/
inductive Event where
  /-- `Pin(p, level)`: a drive of an output pin -/
  | pin (p : Pin) (l : Level)
  /-- `Poll(v)`: one sample of DREQ, true = the chip is ready -/
  | poll (v : Bool)
  /-- `Xfer(tx, rx)`: one full-duplex byte exchange -/
  | xfer (tx rx : Byte)
  /-- `Delay(us)`: a busy-wait -/
  | delay (us : Nat)
  /-- `Diag(kind, line)` -/
  | diag (kind : DiagKind) (line : Pin)
  /-- `Play(v)`: a write of the playing flag -/
  | play (v : Bool)
  /-- `Resp(status, value, data)`: the end of a command -/
  | resp (status : Byte) (value : Count) (data : List Byte)
  deriving DecidableEq, Repr

/-! ## State elements -/

/-- The select-line state (R48): true = active, so its pin is at 0. -/
structure Sel where
  cmd : Bool
  data : Bool
  deriving DecidableEq, Repr

/-- The response register `st` (R53): the 8-bit response code and the 32-bit value of the last command. -/
structure Response where
  status : Byte
  value : Count
  deriving DecidableEq, Repr

/-- The model's own field: what the environment will supply (R15, R16, R59). `dreq` lists the coming samples of
DREQ, the next one first, and `dreqRest` is every sample after them; `rx` lists the coming received bytes, and
`rxCount` counts the exchanges done, so that a byte the list does not hold is `Config.rxByte` of its number.
Assumption log 3. -/
structure Env where
  dreq : List Bool
  dreqRest : Bool
  rx : List Byte
  rxCount : Nat
  deriving DecidableEq, Repr

/-- The two loops a command can hang in (R20): the ready-wait of R146, and the poll loop of a hard reset (R213). -/
inductive Hang where
  | readyWait | resetPoll
  deriving DecidableEq, Repr

/-- The block's state. `x` to `k` are the spec's (R60); `cfg`, `env`, `inbox` and `hang` are the model's own:
the parameters and draws of a step (R59) and a command that hangs (R20). -/
structure State where
  /-- the register-file mirror, by index (R40, R41) -/
  x : Vector Word 16
  /-- the select-line state (R48) -/
  sel : Sel
  /-- the level of pin XRESET (R50) -/
  rst : Level
  /-- the playing flag (R52) -/
  playing : Bool
  /-- the response register (R53) -/
  st : Response
  /-- the trace `tr` (R55), its last event first; `State.trace` is it in order -/
  tr : List Event
  /-- the index of the next command (R54) -/
  k : Nat
  /-- the configuration (R7); no step changes it -/
  cfg : Cfg
  /-- what the environment will supply -/
  env : Env
  /-- the commands the host has yet to hand over, the next one first (R54, R289) -/
  inbox : List Command
  /-- the loop the command in progress hangs in, if it hangs (R20) -/
  hang : Option Hang
  deriving DecidableEq, Repr

/-- The trace in the order of its events (R55). -/
def State.trace (s : State) : List Event := s.tr.reverse

/-! ## Reset -/

/-- The environment of `State.reset`: no listed sample or byte, and DREQ at rest ready. Assumption log 3. -/
def Env.reset : Env := ⟨[], true, [], 0⟩

/-- Block reset under a configuration (R60, R310). -/
def State.resetWith (c : Cfg) : State where
  x := c.resetValue
  sel := ⟨false, false⟩
  rst := .high
  playing := false
  st := ⟨0, 0⟩
  tr := []
  k := 0
  cfg := c
  env := Env.reset
  inbox := []
  hang := none

/-- The machine right after block reset, under REF (assumption log 1). -/
def State.reset : State := State.resetWith Cfg.ref

/-! ## Reasons a step can stop -/

/-- "The model has no fault outcome" (R22): no command traps (R284), so there is no fault reason. -/
inductive Fault
  deriving DecidableEq, Repr

/-- Why a step is refused. -/
inductive Refusal where
  /-- An instruction without a meaning yet: raised by an arm of `exec` alone, by name. Safe. No arm raises it. -/
  | notModelled (mnemonic : String)
  /-- Raised by `step` before any command when the configuration is not well formed (R9, R22: "configurations that
  are not well formed (rule R9) are refused before any step"). Safe: it is the spec's own refusal. -/
  | illFormedConfiguration
  deriving DecidableEq, Repr

end Sys2Proof.Machine
end

