-- ==== Sys2Proof/Machine/Operands.lean ====
section
/-! DEFINITION. What the operands of a command denote: mirror entries (R11), descriptor fields (R44), bus bytes
(R120 to R125), the clock fields (R46), the settle time (R192) and the address predicate (R200). -/

namespace Sys2Proof.Machine

/-! ## The mirror (R11, R41) -/

/-- `x[r]`. -/
def State.reg (s : State) (r : Reg) : Word := s.x[r.index]

/-- `x[r] <- v`. -/
def State.setReg (s : State) (r : Reg) (v : Word) : State := { s with x := s.x.set r.index v }

/-! ## The register descriptor table (R44) -/

/-- `WRITABLE[r]`. -/
def writable (c : Cfg) (r : Reg) : Bool := c.writable[r.index]

/-- `NOMINAL_CYCLES[r]`. -/
def nominalCycles (c : Cfg) (r : Reg) : Nat := c.nominalCycles[r.index]

/-- `1 << MODE_RESET_BIT` (R45, R220). -/
def modeResetMask (c : Cfg) : Word := 1#16 <<< c.modeResetBit.val

/-! ## Bytes on the bus -/

/-- `v[15:8]`. -/
def hiByte (v : Word) : Byte := v.extractLsb' 8 8

/-- `v[7:0]`. -/
def loByte (v : Word) : Byte := v.extractLsb' 0 8

/-- `REG_ADDR(r) = zext_8(r)` (R121). -/
def regAddr (r : Reg) : Byte := r.bits.setWidth 8

/-- `HDR_ADDR(a)` (R125). -/
def hdrAddr (c : Cfg) (a : Addr) : Byte := (c.hdrAddr.lookup a).getD (loByte a)

/-! ## The clock fields and the settle time -/

/-- `mult = c[15:13]` (R46). -/
def clkMult (c : Word) : BitVec 3 := c.extractLsb' 13 3

/-- `add = c[12:11]` (R46). -/
def clkAdd (c : Word) : BitVec 2 := c.extractLsb' 11 2

/-- `freq = c[10:0]` (R46). -/
def clkFreq (c : Word) : BitVec 11 := c.extractLsb' 0 11

/-- `XTAL_RATE(freq)` (R191). -/
def xtalRate (t : XtalRates) (f : BitVec 11) : Nat := t.rate f

/-- `MULT_RATE(mult, add, xtal)` (R191). -/
def multRate (t : MultRates) (m : BitVec 3) (a : BitVec 2) (xtal : Nat) : Nat :=
  t.rate m a xtal

/-- `ceil_div(p, q)` (R10). -/
def ceilDiv (p q : Nat) : Nat := (p + q - 1) / q

/-- The rate a commit of `r` is timed by: the crystal rate for CLOCK_CONFIG, the multiplied rate otherwise (R192). -/
def settleRate (c : Cfg) (clk : Word) (r : Reg) : Nat :=
  let xtal := xtalRate c.xtal (clkFreq clk)
  if r = .clockConfig then xtal else multRate c.mult (clkMult clk) (clkAdd clk) xtal

/-- `SettleTime(r)` in microseconds, for the CLOCK_CONFIG value `clk` (R192). -/
def settleFor (c : Cfg) (clk : Word) (r : Reg) : Nat :=
  ceilDiv (1000000 * nominalCycles c r) (settleRate c clk r) + Config.settleMarginUs

/-- `SettleTime(r)`, from the mirror as it stands (R190, R192). -/
def settleTime (s : State) (r : Reg) : Nat := settleFor s.cfg (s.reg .clockConfig) r

/-! ## Address validity -/

/-- `a` lies in the half-open range `[lo, hi)` (R75). -/
def AddrRange.holds (g : AddrRange) (a : Addr) : Bool := decide (g.lo ≤ a.toNat) && decide (a.toNat < g.hi)

/-- `ValidAddr(a)` (R200). -/
def validAddr (c : Cfg) (a : Addr) : Bool := !(c.forbidden.toList.any fun g => AddrRange.holds g a)

end Sys2Proof.Machine
end

