-- ==== Sys2Proof/Machine/Flags.lean ====
section
/-! DEFINITION. The response codes (R280) and the response register, the block's only flag register (R53): how a
command ends. No command traps (R284): ending with a failure code is what this block does instead. -/

namespace Sys2Proof.Machine

/-- The response codes of R280. -/
inductive Status where
  | ok | failArbitration | failInvalidAddress | failZeroSize | failNotWritable | failSoftResetTimeout
  | illegalCommand
  deriving DecidableEq, Repr

/-- The column "code" of R280. -/
def Status.code : Status → Byte
  | .ok => 0x00#8
  | .failArbitration => 0x01#8
  | .failInvalidAddress => 0x02#8
  | .failZeroSize => 0x03#8
  | .failNotWritable => 0x04#8
  | .failSoftResetTimeout => 0x05#8
  | .illegalCommand => 0xFF#8

/-- A response `(status, value, data)` (R13); value 0 and no data unless a rule says otherwise. -/
structure Reply where
  status : Status
  value : Count := 0
  data : List Byte := []
  deriving DecidableEq, Repr

/-- `if b then 1 else 0`, the value of a query. -/
def boolValue (b : Bool) : Count := if b then 1 else 0

/-- The end of a command: both fields of the response register are written (R53), the `Resp` event is appended
(R14) and the command index advances by one (R54). -/
def respond (p : Reply) (s : State) : State :=
  { s with
    st := ⟨p.status.code, p.value⟩
    tr := .resp p.status.code p.value p.data :: s.tr
    k := s.k + 1 }

/-- An ill-formed command (R112): ILLEGAL_COMMAND and no other effect. -/
def rejectCommand (s : State) : State := respond ⟨.illegalCommand, 0, []⟩ s

end Sys2Proof.Machine
end

