-- ==== Sys2Proof/Machine/Ops.lean ====
section
/-! DEFINITION. The primitives of R14 to R17 and the procedures the commands share: arbitration (R140, R141), the
ready-wait (R146), and the bus read and write of a register (R160, R167). -/

namespace Sys2Proof.Machine

/-! ## Procedures that may hang

A ready-wait or the poll loop of a hard reset may sample false for ever (R20). A procedure that holds one ends
either with a value, or hung in the loop, in the state the loop has reached. -/

/-- The result of a procedure that may hang. -/
inductive Res (α : Type) where
  | done (a : α) (s : State)
  | hung (h : Hang) (s : State)
  deriving DecidableEq, Repr

/-- Sequencing: what follows a hung procedure does not run. -/
def Res.bind {α β : Type} (r : Res α) (f : α → State → Res β) : Res β :=
  match r with
  | .done a s => f a s
  | .hung h s => .hung h s

/-- The end of a command: its response, or the hang it is caught in (no `Resp`, R20). -/
def finish (r : Res Reply) : Host.Outcome State Fault Refusal :=
  match r with
  | .done p s => .next (respond p s)
  | .hung h s => .next { s with hang := some h }

/-! ## Events -/

/-- Append one event to the trace (R14). -/
def emit (e : Event) (s : State) : State := { s with tr := e :: s.tr }

/-- Append events in order. -/
def State.log (s : State) (es : List Event) : State := { s with tr := es.reverse ++ s.tr }

/-- The level that drives an active-low line active or inactive (R48): "if active then 0 else 1". -/
def levelOf (active : Bool) : Level := if active then .low else .high

/-- `Delay(us)` (R17). -/
def delay (us : Nat) (s : State) : State := emit (.delay us) s

/-! ## Draws -/

/-- The next sample of DREQ (R16). -/
def Env.sample (e : Env) : Bool :=
  match e.dreq with
  | b :: _ => b
  | [] => e.dreqRest

/-- The environment after one sample. -/
def Env.dropSample (e : Env) : Env := { e with dreq := e.dreq.tail }

/-- The byte the environment will send in its `j`-th exchange from now, from 0 (R15). -/
def Env.rxAt (e : Env) (j : Nat) : Byte := (e.rx[j]?).getD (Config.rxByte (e.rxCount + j))

/-- The environment after `n` exchanges. -/
def Env.dropRx (e : Env) (n : Nat) : Env := { e with rx := e.rx.drop n, rxCount := e.rxCount + n }

/-- `Poll()` (R16). -/
def poll (s : State) : Bool × State :=
  (s.env.sample, emit (.poll s.env.sample) { s with env := s.env.dropSample })

/-- `Xfer(tx)` (R15): the received byte, and the state after the exchange. -/
def xfer (tx : Byte) (s : State) : Byte × State :=
  (s.env.rxAt 0, emit (.xfer tx (s.env.rxAt 0)) { s with env := s.env.dropRx 1 })

/-- An exchange whose received byte is discarded (R15). -/
def send (tx : Byte) (s : State) : State := (xfer tx s).2

/-! ## Arbitration -/

/-- `SelectCmd(active)` (R140). -/
def selectCmd (active : Bool) (s : State) : Bool × State :=
  if active && s.sel.data then
    (false, emit (.diag .arbitrationConflict .xcs) s)
  else
    (true, emit (.pin .xcs (levelOf active)) { s with sel := ⟨active, s.sel.data⟩ })

/-- `SelectData(active)` (R141). -/
def selectData (active : Bool) (s : State) : Bool × State :=
  if active && s.sel.cmd then
    (false, emit (.diag .arbitrationConflict .xdcs) s)
  else
    (true, emit (.pin .xdcs (levelOf active)) { s with sel := ⟨s.sel.cmd, active⟩ })

/-! ## The ready-wait -/

/-- `WaitReady()` (R146), over the samples the environment still lists. Once they are used up every sample is
`dreqRest`: a false one is then followed by false ones only, and the wait hangs. -/
def waitLoop : List Bool → State → Res Unit
  | [], s =>
    match poll s with
    | (true, s') => .done () s'
    | (false, s') => .hung .readyWait s'
  | _ :: rest, s =>
    match poll s with
    | (true, s') => .done () s'
    | (false, s') => waitLoop rest s'

/-- `WaitReady()` (R146). -/
def waitReady (s : State) : Res Unit := waitLoop s.env.dreq s

/-! ## Register frames -/

/-- `ReadReg(r)` (R160), with the frame of R122 and the byte order of R70. -/
def readReg (r : Reg) (s : State) : Res Status :=
  (waitReady s).bind fun _ s =>
    match selectCmd true s with
    | (false, s) => .done .failArbitration s
    | (true, s) =>
      let s := send s.cfg.opCmdRead s
      let s := send (regAddr r) s
      let (hi, s) := xfer s.cfg.txFill s
      let (lo, s) := xfer s.cfg.txFill s
      let s := (selectCmd false s).2
      .done .ok (s.setReg r (hi ++ lo))

/-- `CommitReg(r)` (R167), with the frame of R120. -/
def commitReg (r : Reg) (s : State) : Status × State :=
  if writable s.cfg r = false then (.failNotWritable, s)
  else
    match selectCmd true s with
    | (false, s) => (.failArbitration, s)
    | (true, s) =>
      let v := s.reg r
      let t := settleTime s r
      let s := send s.cfg.opCmdWrite s
      let s := send (regAddr r) s
      let s := send (hiByte v) s
      let s := send (loByte v) s
      let s := (selectCmd false s).2
      (.ok, delay t s)

end Sys2Proof.Machine
end

