-- ==== Sys2Proof/Machine/ChipSelect.lean ====
section
/-! DEFINITION. The commands of the Chip Select Controller (spec/40_chip_select.md). -/

namespace Sys2Proof.Machine

/-- SELCMD (R142). -/
def execSelcmd (active : Bool) (s : State) : Host.Outcome State Fault Refusal :=
  match selectCmd active s with
  | (true, s) => finish (.done ⟨.ok, 0, []⟩ s)
  | (false, s) => finish (.done ⟨.failArbitration, 0, []⟩ s)

/-- SELDATA (R143). -/
def execSeldata (active : Bool) (s : State) : Host.Outcome State Fault Refusal :=
  match selectData active s with
  | (true, s) => finish (.done ⟨.ok, 0, []⟩ s)
  | (false, s) => finish (.done ⟨.failArbitration, 0, []⟩ s)

/-- QCMD (R144). -/
def execQcmd (s : State) : Host.Outcome State Fault Refusal :=
  finish (.done ⟨.ok, boolValue s.sel.cmd, []⟩ s)

/-- QDATA (R145). -/
def execQdata (s : State) : Host.Outcome State Fault Refusal :=
  finish (.done ⟨.ok, boolValue s.sel.data, []⟩ s)

/-- QREADY (R147): exactly one sample, whatever it is. -/
def execQready (s : State) : Host.Outcome State Fault Refusal :=
  match poll s with
  | (v, s) => finish (.done ⟨.ok, boolValue v, []⟩ s)

end Sys2Proof.Machine
end

