-- ==== Sys2Proof/Machine/CommandProtocol.lean ====
section
/-! DEFINITION. The procedures and commands of the Command Protocol Engine (spec/42_command_protocol.md): hard
reset, soft reset, system initialization and the address test. -/

namespace Sys2Proof.Machine

/-! ## Hard reset -/

/-- The poll loop of a hard reset (R213), over the samples the environment still lists (see `waitLoop`). -/
def resetLoop : List Bool → State → Res Unit
  | [], s =>
    match poll s with
    | (true, s') => .done () s'
    | (false, s') => .hung .resetPoll s'
  | _ :: rest, s =>
    match poll s with
    | (true, s') => .done () s'
    | (false, s') => resetLoop rest (delay Config.pollUs s')

/-- A drive of the reset line (R50, R210). -/
def driveReset (l : Level) (s : State) : State := emit (.pin .xreset l) { s with rst := l }

/-- `HardReset()` (R210, R213). -/
def hardReset (s : State) : Res Unit :=
  let s := driveReset .low s
  let s := delay s.cfg.hardResetLowUs s
  let s := driveReset .high s
  resetLoop s.env.dreq s

/-- HRST (R214). -/
def execHrst (s : State) : Host.Outcome State Fault Refusal :=
  finish ((hardReset s).bind fun _ s => .done ⟨.ok, 0, []⟩ s)

/-! ## System initialization -/

/-- `INIT_VALUE[r]` for the four registers of R230, in its order. -/
def initList (v : InitValues) : List (Reg × Word) :=
  [(.mode, v.mode), (.bass, v.bass), (.clockConfig, v.clockConfig), (.volume, v.volume)]

/-- The loop of `Init()`: assign, commit, and stop at the first failure (R230). -/
def initLoop : List (Reg × Word) → State → Status × State
  | [], s => (.ok, s)
  | (r, v) :: rest, s =>
    match commitReg r (s.setReg r v) with
    | (.ok, s) => initLoop rest s
    | (st, s) => (st, s)

/-- `Init()` (R230). -/
def initSystem (s : State) : Status × State := initLoop (initList s.cfg.initValue) s

/-- INIT (R231). -/
def execInit (s : State) : Host.Outcome State Fault Refusal :=
  match initSystem s with
  | (st, s) => finish (.done ⟨st, 0, []⟩ s)

/-! ## Soft reset -/

/-- The delays that fit in the soft-reset budget: `e + POLL_US > SOFT_RESET_BUDGET_US` holds first after this many
(R221: samples at `e = 0, 3, ..., 999`). -/
def softResetDelays : Nat := Config.softResetBudgetUs / Config.pollUs

/-- The poll loop of a soft reset (R221), with the number of delays still inside the budget; true when DREQ was
sampled true within it. -/
def softResetLoop : Nat → State → Bool × State
  | 0, s => poll s
  | left + 1, s =>
    match poll s with
    | (true, s') => (true, s')
    | (false, s') => softResetLoop left (delay Config.pollUs s')

/-- `SoftReset()` (R220 to R222). -/
def softReset (s : State) : Res Status :=
  let s := s.setReg .mode (s.reg .mode ||| modeResetMask s.cfg)
  match commitReg .mode s with
  | (.ok, s) =>
    match softResetLoop softResetDelays s with
    | (true, s) => .done .ok (initSystem s).2
    | (false, s) => (hardReset s).bind fun _ s => .done .failSoftResetTimeout s
  | (st, s) => .done st s

/-- SRST (R223). -/
def execSrst (s : State) : Host.Outcome State Fault Refusal :=
  finish ((softReset s).bind fun st s => .done ⟨st, 0, []⟩ s)

/-! ## Address validity -/

/-- VALID (R201). -/
def execValid (a : Addr) (s : State) : Host.Outcome State Fault Refusal :=
  finish (.done ⟨.ok, boolValue (validAddr s.cfg a), []⟩ s)

end Sys2Proof.Machine
end

