-- ==== Sys2Proof/Machine/RegisterFile.lean ====
section
/-! DEFINITION. The commands of the Register File Model (spec/41_register_file.md) and SETTLE (R195). -/

namespace Sys2Proof.Machine

/-- LUPD (R161). -/
def execLupd (r : Reg) (s : State) : Host.Outcome State Fault Refusal :=
  finish ((readReg r s).bind fun st s => .done ⟨st, 0, []⟩ s)

/-- LASGN (R163). -/
def execLasgn (r : Reg) (v : Word) (s : State) : Host.Outcome State Fault Refusal :=
  finish (.done ⟨.ok, 0, []⟩ (s.setReg r v))

/-- LSET (R164). -/
def execLset (r : Reg) (m : Word) (s : State) : Host.Outcome State Fault Refusal :=
  finish (.done ⟨.ok, 0, []⟩ (s.setReg r (s.reg r ||| m)))

/-- LCLR (R165). -/
def execLclr (r : Reg) (m : Word) (s : State) : Host.Outcome State Fault Refusal :=
  finish (.done ⟨.ok, 0, []⟩ (s.setReg r (s.reg r &&& ~~~m)))

/-- COMMIT (R168). -/
def execCommit (r : Reg) (s : State) : Host.Outcome State Fault Refusal :=
  match commitReg r s with
  | (st, s) => finish (.done ⟨st, 0, []⟩ s)

/-- RDCACHE (R170): the value is `zext_32(x[r])`. -/
def execRdcache (r : Reg) (s : State) : Host.Outcome State Fault Refusal :=
  finish (.done ⟨.ok, (s.reg r).setWidth 32, []⟩ s)

/-- SETTLE (R195): the settle time as a 32-bit value (it fits, R193). -/
def execSettle (r : Reg) (s : State) : Host.Outcome State Fault Refusal :=
  finish (.done ⟨.ok, BitVec.ofNat 32 (settleTime s r), []⟩ s)

end Sys2Proof.Machine
end

