-- ==== Sys2Proof/Machine/Streaming.lean ====
section
/-! DEFINITION. The procedures and commands of the Streaming Data Engine (spec/43_streaming.md). -/

namespace Sys2Proof.Machine

/-! ## Data frames -/

/-- `Resync()` (R241). Inside a data frame its `SelectData(true)` cannot fail. -/
def resync (s : State) : Res Unit :=
  let s := (selectData false s).2
  let s := (selectData true s).2
  waitReady s

/-- The flow-control check before payload byte `i` (R240): a resync at every multiple of CHUNK but 0. -/
def flowControl (i : Nat) (s : State) : Res Unit :=
  if i ≠ 0 ∧ i % Config.chunk = 0 then resync s else .done () s

/-- The payload of a data write frame, from transfer index `i` on (R123, R240). -/
def writeBytes : Nat → List Byte → State → Res Unit
  | _, [], s => .done () s
  | i, b :: bs, s => (flowControl i s).bind fun _ s => writeBytes (i + 1) bs (send b s)

/-- The payload of a data read frame: `n` more bytes from transfer index `i` on, after the bytes `d` already
received (R124, R244). -/
def readBytes : Nat → Nat → List Byte → State → Res (List Byte)
  | 0, _, d, s => .done d s
  | n + 1, i, d, s =>
    (flowControl i s).bind fun _ s =>
      match xfer s.cfg.txFill s with
      | (b, s) => readBytes n (i + 1) (d ++ [b]) s

/-- The checks a transfer of `n` bytes at `a` makes, in their order (R240, R244, R283): ready-wait, address, size,
arbitration. On OK data-select is active. -/
def openFrame (a : Addr) (n : Nat) (s : State) : Res Status :=
  (waitReady s).bind fun _ s =>
    if validAddr s.cfg a = false then .done .failInvalidAddress s
    else if n = 0 then .done .failZeroSize s
    else
      match selectData true s with
      | (false, s) => .done .failArbitration s
      | (true, s) => .done .ok s

/-- `TransferOut(a, p)` (R240). -/
def transferOut (a : Addr) (p : List Byte) (s : State) : Res Status :=
  (openFrame a p.length s).bind fun st s =>
    match st with
    | .ok =>
      let s := send s.cfg.opDataWrite s
      let s := send (hdrAddr s.cfg a) s
      (writeBytes 0 p s).bind fun _ s => .done .ok (selectData false s).2
    | st => .done st s

/-- `TransferIn(a, n)` (R244). -/
def transferIn (a : Addr) (n : Nat) (s : State) : Res (Status × List Byte) :=
  (openFrame a n s).bind fun st s =>
    match st with
    | .ok =>
      let s := send s.cfg.opDataRead s
      let s := send (hdrAddr s.cfg a) s
      (readBytes n 0 [] s).bind fun d s => .done (.ok, d) (selectData false s).2
    | st => .done (st, []) s

/-- XOUT (R242). The payload is the transfer's; `n` is its length in a well-formed command (R111). -/
def execXout (a : Addr) (_n : Count) (p : List Byte) (s : State) : Host.Outcome State Fault Refusal :=
  finish ((transferOut a p s).bind fun st s => .done ⟨st, 0, []⟩ s)

/-- XIN (R246): the received bytes are the response's data. -/
def execXin (a : Addr) (n : Count) (s : State) : Host.Outcome State Fault Refusal :=
  finish ((transferIn a n.toNat s).bind fun r s => .done ⟨r.1, 0, r.2⟩ s)

/-! ## End-fill padding -/

/-- `FetchFill()` (R255). -/
def fetchFill (s : State) : Res (Status × Byte) :=
  match commitReg .wramAddr (s.setReg .wramAddr s.cfg.fillAddr) with
  | (.ok, s) =>
    (readReg .wramData s).bind fun st s =>
      match st with
      | .ok => .done (.ok, loByte (s.reg .wramData)) s
      | st => .done (st, 0) s
  | (st, s) => .done (st, 0) s

/-- The address of padding chunk `k` (R250): `(a + CHUNK * k) mod 2^16`. -/
def chunkAddr (a : Addr) (k : Nat) : Addr := BitVec.ofNat 16 (a.toNat + Config.chunk * k)

/-- The size of padding chunk `k` of `n` bytes (R250): `min(CHUNK, n - CHUNK * k)`. -/
def chunkSize (n k : Nat) : Nat := min Config.chunk (n - Config.chunk * k)

/-- The chunk loop of `SendPadding` (R250): `left` chunks are still to come, the next one is chunk `k`. -/
def padLoop (a : Addr) (n : Nat) (fill : Byte) : Nat → Nat → State → Res Status
  | 0, _, s => .done .ok s
  | left + 1, k, s =>
    (transferOut (chunkAddr a k) (List.replicate (chunkSize n k) fill) s).bind fun st s =>
      match st with
      | .ok => padLoop a n fill left (k + 1) s
      | st => .done st s

/-- `SendPadding(a, n)` (R250): `CHUNK * k < n` holds for `ceil_div(n, CHUNK)` values of `k` (R256). -/
def sendPadding (a : Addr) (n : Nat) (s : State) : Res Status :=
  (fetchFill s).bind fun r s =>
    match r with
    | (.ok, fill) => padLoop a n fill (ceilDiv n Config.chunk) 0 s
    | (st, _) => .done st s

/-- PAD (R257). -/
def execPad (a : Addr) (n : Count) (s : State) : Host.Outcome State Fault Refusal :=
  finish ((sendPadding a n.toNat s).bind fun st s => .done ⟨st, 0, []⟩ s)

/-! ## Playback -/

/-- A write of the playing flag with its event (R52, R260). -/
def setPlaying (v : Bool) (s : State) : State := emit (.play v) { s with playing := v }

/-- The streaming steps of `StartPlayback` between the two writes of the flag (R260): the payload, the padding and
the drain, each only if all before it ended OK. -/
def playBody (p : List Byte) (s : State) : Res Status :=
  (transferOut s.cfg.playbackAddr p s).bind fun st s =>
    match st with
    | .ok =>
      (sendPadding s.cfg.padAddr Config.playPadBytes s).bind fun st s =>
        match st with
        | .ok => .done .ok (delay Config.drainUs s)
        | st => .done st s
    | st => .done st s

/-- `StartPlayback(p)` (R260), with the preamble frame of R126. -/
def startPlayback (p : List Byte) (s : State) : Res Status :=
  (waitReady s).bind fun _ s =>
    match selectData true s with
    | (false, s) => .done .failArbitration s
    | (true, s) =>
      let s := send 0x00#8 s
      let s := send 0x00#8 s
      let s := (selectData false s).2
      (playBody p (setPlaying true s)).bind fun st s => .done st (setPlaying false s)

/-- PLAY (R266). The payload is the transfer's; `n` is its length in a well-formed command (R111). -/
def execPlay (_n : Count) (p : List Byte) (s : State) : Host.Outcome State Fault Refusal :=
  finish ((startPlayback p s).bind fun st s => .done ⟨st, 0, []⟩ s)

end Sys2Proof.Machine
end

