-- ==== Sys2Proof/Machine/Dispatch.lean ====
section
/-! DEFINITION. The dispatch of a command to its meaning: one arm per row of R110. -/

namespace Sys2Proof.Machine

def exec (i : Instr) (s : State) : Host.Outcome State Fault Refusal :=
  match i with
  | .selcmd active => Sys2Proof.Machine.execSelcmd active s
  | .seldata active => Sys2Proof.Machine.execSeldata active s
  | .qcmd => Sys2Proof.Machine.execQcmd s
  | .qdata => Sys2Proof.Machine.execQdata s
  | .qready => Sys2Proof.Machine.execQready s
  | .lupd r => Sys2Proof.Machine.execLupd r s
  | .lasgn r v => Sys2Proof.Machine.execLasgn r v s
  | .lset r m => Sys2Proof.Machine.execLset r m s
  | .lclr r m => Sys2Proof.Machine.execLclr r m s
  | .commit r => Sys2Proof.Machine.execCommit r s
  | .rdcache r => Sys2Proof.Machine.execRdcache r s
  | .settle r => Sys2Proof.Machine.execSettle r s
  | .hrst => Sys2Proof.Machine.execHrst s
  | .srst => Sys2Proof.Machine.execSrst s
  | .init => Sys2Proof.Machine.execInit s
  | .valid a => Sys2Proof.Machine.execValid a s
  | .xout a n p => Sys2Proof.Machine.execXout a n p s
  | .xin a n => Sys2Proof.Machine.execXin a n s
  | .pad a n => Sys2Proof.Machine.execPad a n s
  | .play n p => Sys2Proof.Machine.execPlay n p s

end Sys2Proof.Machine
end

