-- ==== Sys2Proof/Machine/Step.lean ====
section
/-! DEFINITION. One step of the block: it takes the host's next command and runs it to its end, or goes once more
round the loop that a command hangs in (R20, R21, R54). -/

namespace Sys2Proof.Machine

/-- Once more round the loop of a hang: DREQ is sampled false again (R20, R146, R213). -/
def hangStep (h : Hang) (s : State) : State :=
  match h with
  | .readyWait => emit (.poll false) s
  | .resetPoll => emit (.poll false) (delay Config.pollUs s)

/-- One command: decoded and run, or rejected as ill formed (R112). -/
def runCommand (c : Command) (s : State) : Host.Outcome State Fault Refusal :=
  match decode c with
  | .ok i => exec i s
  | .error _ => .next (rejectCommand s)

/-- One step. A configuration that is not well formed is refused before anything runs (R22); a command that hangs
goes on hanging (R20) and no other starts (R21); otherwise the next command runs; with none the block waits (R310). -/
def step (s : State) : Host.Outcome State Fault Refusal :=
  if s.cfg.wf = false then .refused .illFormedConfiguration
  else
    match s.hang with
    | some h => .next (hangStep h s)
    | none =>
      match s.inbox with
      | [] => .next s
      | c :: rest => runCommand c { s with inbox := rest }

/-- The state in which the very next step runs the command of a row of spec/opcode_table.json: it is the host's
next command, and no command hangs. Assumption log 6. -/
def State.withFetchWord (s : State) (nbits w : Nat) : State :=
  { s with inbox := tableCommand nbits w :: s.inbox, hang := none }

end Sys2Proof.Machine
end

