-- ==== Sys2Proof/Safety.lean ====
section
/-! DEFINITION. The terms claims use: what the environment grants a wait, the frames a command puts on the bus
(the abbreviations of spec/95_test_vectors.md), what a trace says of the lines, and the coherence of a state. -/

namespace Sys2Proof.Machine

/-! ## The environment -/

/-- The `j`-th sample of DREQ from now, from 0 (R16). -/
def Env.sampleAt (e : Env) (j : Nat) : Bool := (e.dreq[j]?).getD e.dreqRest

/-- The environment with the samples `ds` still listed. -/
def Env.withDreq (e : Env) (ds : List Bool) : Env := { e with dreq := ds }

/-- The next `n` samples are false and the one after them is true; `ds` is what the list then still holds. -/
abbrev Env.ReadyAfter (e : Env) (n : Nat) (ds : List Bool) : Prop :=
  e.dreq = List.replicate n false ++ true :: ds ∨ (e.dreq = List.replicate n false ∧ e.dreqRest = true ∧ ds = [])

/-- DREQ is never sampled true again: a wait hangs (R20). -/
abbrev Env.NeverReady (e : Env) : Prop := (∀ b ∈ e.dreq, b = false) ∧ e.dreqRest = false

/-- At least `m` more samples are true: the fairness a command's end rests on (R20). -/
abbrev Env.Grants (e : Env) (m : Nat) : Prop := e.dreqRest = true ∨ m ≤ e.dreq.count true

/-! ## Events and frames -/

/-- The events of a ready-wait whose first `n` samples are false (R146). -/
def waitEvents (n : Nat) : List Event := List.replicate n (.poll false) ++ [.poll true]

/-- The events of `n` rounds of a reset poll loop: a false sample and its delay (R213, R221). -/
def pollRounds (n : Nat) : List Event := (List.replicate n [Event.poll false, Event.delay 3]).flatten

/-- `WF(r, v, t)`: a successful `CommitReg` (R120, R167), with the byte `rx j` received in its `j`-th exchange. -/
def writeFrame (c : Cfg) (rx : Nat → Byte) (r : Reg) (v : Word) (t : Nat) : List Event :=
  [.pin .xcs .low, .xfer c.opCmdWrite (rx 0), .xfer (BitVec.ofNat 8 r.index.val) (rx 1),
   .xfer (BitVec.ofNat 8 (v.toNat / 256)) (rx 2), .xfer (BitVec.ofNat 8 v.toNat) (rx 3),
   .pin .xcs .high, .delay t]

/-- `RF(r, hi, lo)` after its ready-wait: the frame of a successful `ReadReg` (R122, R160). -/
def readFrame (c : Cfg) (rx : Nat → Byte) (r : Reg) : List Event :=
  [.pin .xcs .low, .xfer c.opCmdRead (rx 0), .xfer (BitVec.ofNat 8 r.index.val) (rx 1),
   .xfer c.txFill (rx 2), .xfer c.txFill (rx 3), .pin .xcs .high]

/-- No received byte is told: the `_` of the spec's `Xfer(t,_)`. -/
def noRx : Nat → Byte := fun _ => 0

/-- The payload of a data frame (R123): every byte in list order, with a resync (R241) before each index that is a
multiple of 32 but 0. -/
def payloadEvents (p : List Byte) : List Event :=
  p.zipIdx.flatMap fun e =>
    (if e.2 ≠ 0 ∧ e.2 % 32 = 0 then [.pin .xdcs .high, .pin .xdcs .low, .poll true] else []) ++ [.xfer e.1 0]

/-- A data frame with its ready-wait (R240, R244): `op` is the first header byte, `p` the bytes sent. -/
def dataFrame (c : Cfg) (op : Byte) (a : Addr) (p : List Byte) : List Event :=
  [.poll true, .pin .xdcs .low, .xfer op 0, .xfer ((c.hdrAddr.lookup a).getD (BitVec.ofNat 8 a.toNat)) 0] ++
    payloadEvents p ++ [.pin .xdcs .high]

/-- The first `j` frames of a padding of `n` bytes `f` at `a` (R250, R256). -/
def paddingFrames (c : Cfg) (a : Addr) (n : Nat) (f : Byte) (j : Nat) : List Event :=
  (List.range j).flatMap fun k =>
    dataFrame c c.opDataWrite (a + BitVec.ofNat 16 (32 * k)) (List.replicate (min 32 (n - 32 * k)) f)

/-- The events of the fill fetch (R255): the commit of WRAM_ADDR and the read of WRAM_DATA. -/
def fetchFrames (c : Cfg) (clk : Word) : List Event :=
  writeFrame c noRx .wramAddr c.fillAddr (settleFor c clk .wramAddr) ++ [.poll true] ++ readFrame c noRx .wramData

/-- An event with its received byte untold, and without the samples that kept a wait waiting. -/
def Event.sent : Event → Option Event
  | .poll false => none
  | .xfer tx _ => some (.xfer tx 0)
  | e => some e

/-- What the block has done: the trace without false samples and received bytes. -/
def State.sent (s : State) : List Event := s.trace.filterMap Event.sent

/-- `s` after a command that appended the events `es` and ended with the response `(status, value, data)`: the
response register, the `Resp` event and the command index (R53, R54). -/
def State.replied (s : State) (status : Byte) (value : Count) (data : List Byte) (es : List Event) : State :=
  { s with st := ⟨status, value⟩, k := s.k + 1, tr := (es ++ [Event.resp status value data]).reverse ++ s.tr }

/-! ## What a trace says (its last event first) -/

/-- The level a pin was last driven to; block reset leaves it at 1 (R60). -/
def lastPin (p : Pin) : List Event → Level
  | [] => .high
  | .pin q l :: es => if q = p then l else lastPin p es
  | _ :: es => lastPin p es

/-- The last value written to the playing flag (R52). -/
def lastPlay : List Event → Bool
  | [] => false
  | .play v :: _ => v
  | _ :: es => lastPlay es

/-- The last response (R53). -/
def lastResp : List Event → Response
  | [] => ⟨0, 0⟩
  | .resp c v _ :: _ => ⟨c, v⟩
  | _ :: es => lastResp es

/-- A `Resp` event. -/
def Event.isResp : Event → Bool
  | .resp _ _ _ => true
  | _ => false

/-- An `Xfer` event. -/
def Event.isXfer : Event → Bool
  | .xfer _ _ => true
  | _ => false

/-- A `Play` event. -/
def Event.isPlay : Event → Bool
  | .play _ => true
  | _ => false

/-- A drive of one pin. -/
def Event.isPin (p : Pin) : Event → Bool
  | .pin q _ => q = p
  | _ => false

/-- The discipline of the bus: a select line is driven low only while the other is high (R49), and a byte is
exchanged only while exactly one of them is low (R18: a frame is what one active line frames). -/
def busAllows (e : Event) (es : List Event) : Bool :=
  match e with
  | .xfer _ _ => lastPin .xcs es != lastPin .xdcs es
  | .pin .xcs .low => lastPin .xdcs es == .high
  | .pin .xdcs .low => lastPin .xcs es == .high
  | .pin _ _ | .poll _ | .delay _ | .diag _ _ | .play _ | .resp _ _ _ => true

/-- Every event of the trace kept the discipline when it was appended. -/
def busDiscipline : List Event → Bool
  | [] => true
  | e :: es => busDiscipline es && busAllows e es

/-- The response codes of R280. -/
def responseCodes : List Byte := [0x00, 0x01, 0x02, 0x03, 0x04, 0x05, 0xFF]

/-- A coherent state: what the state elements and the trace must say of each other before and after every step. -/
structure State.Coherent (s : State) : Prop where
  /-- the two select lines are never active together (R49) -/
  selExclusive : ¬ (s.sel.cmd = true ∧ s.sel.data = true)
  /-- pin XCS is at 0 exactly when `sel.cmd` is true (R48) -/
  xcs : lastPin .xcs s.tr = if s.sel.cmd then .low else .high
  /-- pin XDCS is at 0 exactly when `sel.data` is true (R48) -/
  xdcs : lastPin .xdcs s.tr = if s.sel.data then .low else .high
  /-- `rst` is the level of pin XRESET (R50) -/
  xreset : lastPin .xreset s.tr = s.rst
  /-- a hard reset has released the chip whenever a step ends (R210) -/
  rstHigh : s.rst = .high
  /-- every write of the playing flag is in the trace (R52) -/
  play : lastPlay s.tr = s.playing
  /-- between commands the playing flag is false (R52, R266) -/
  idle : s.hang = none → s.playing = false
  /-- the response register holds the last response (R53) -/
  response : lastResp s.tr = s.st
  /-- the response code is one of R280 -/
  status : s.st.status ∈ responseCodes
  /-- the value recorded with a failure is 0 (R280) -/
  failure : s.st.status ≠ 0 → s.st.value = 0
  /-- the command index counts the responses (R54) -/
  count : s.tr.countP Event.isResp = s.k
  /-- the exchange count counts the exchanges (assumption log 3) -/
  exchanges : s.tr.countP Event.isXfer = s.env.rxCount
  /-- the discipline of the bus -/
  bus : busDiscipline s.tr = true
  /-- a command hangs only where DREQ is never sampled true again (R20) -/
  hung : s.hang ≠ none → s.env.NeverReady

end Sys2Proof.Machine

namespace Sys2Proof

open Machine

/-! ## Which row of the opcode table a command matches -/

/-- R112: the word matches the row under the row's mask, and the payload is as R111 asks. -/
abbrev Command.Matches (c : Command) (o : Opcode) : Prop :=
  c.word &&& o.format.mask = o.code ++ 0#56 ∧
    if o.takesPayload then c.payload.length = c.word.toNat % 2 ^ 32 else c.payload = []

/-! ## Operands of an instruction -/

/-- The register operand `r`, of formats R and RV (R103). -/
def Instr.regOperand : Instr → Option Reg
  | .lupd r | .lasgn r _ | .lset r _ | .lclr r _ | .commit r | .rdcache r | .settle r => some r
  | .selcmd _ | .seldata _ | .qcmd | .qdata | .qready | .hrst | .srst | .init
  | .valid _ | .xout _ _ _ | .xin _ _ | .pad _ _ | .play _ _ => none

/-- The address operand `a`, of formats A and AL (R103). -/
def Instr.addrOperand : Instr → Option Addr
  | .valid a | .xout a _ _ | .xin a _ | .pad a _ => some a
  | .selcmd _ | .seldata _ | .qcmd | .qdata | .qready | .hrst | .srst | .init
  | .lupd _ | .lasgn _ _ | .lset _ _ | .lclr _ _ | .commit _ | .rdcache _ | .settle _ | .play _ _ => none

/-- The byte count `n`, of formats AL and L (R103). -/
def Instr.lenOperand : Instr → Option Count
  | .xout _ n _ | .xin _ n | .pad _ n | .play n _ => some n
  | .selcmd _ | .seldata _ | .qcmd | .qdata | .qready | .hrst | .srst | .init | .valid _
  | .lupd _ | .lasgn _ _ | .lset _ _ | .lclr _ _ | .commit _ | .rdcache _ | .settle _ => none

/-- The value or mask `v`, of format RV (R103). -/
def Instr.valOperand : Instr → Option Word
  | .lasgn _ v | .lset _ v | .lclr _ v => some v
  | .selcmd _ | .seldata _ | .qcmd | .qdata | .qready | .hrst | .srst | .init | .valid _
  | .lupd _ | .commit _ | .rdcache _ | .settle _ | .xout _ _ _ | .xin _ _ | .pad _ _ | .play _ _ => none

/-- The flag `active`, of format S (R103). -/
def Instr.actOperand : Instr → Option Bool
  | .selcmd b | .seldata b => some b
  | .qcmd | .qdata | .qready | .hrst | .srst | .init | .valid _
  | .lupd _ | .lasgn _ _ | .lset _ _ | .lclr _ _ | .commit _ | .rdcache _ | .settle _
  | .xout _ _ _ | .xin _ _ | .pad _ _ | .play _ _ => none

/-! ## Whole-machine tables -/

/-- The mirror entries an instruction may write (R42; for PLAY, which R42 does not name, R266). -/
def Instr.mayWrite : Instr → List Reg
  | .lupd r | .lasgn r _ | .lset r _ | .lclr r _ => [r]
  | .srst | .init => [.mode, .bass, .clockConfig, .volume]
  | .pad _ _ | .play _ _ => [.wramAddr, .wramData]
  | .selcmd _ | .seldata _ | .qcmd | .qdata | .qready | .commit _ | .rdcache _ | .settle _
  | .hrst | .valid _ | .xout _ _ _ | .xin _ _ => []

/-- The response codes an instruction may end with (R282). FAIL_NOT_WRITABLE of PAD and PLAY needs
`WRITABLE[WRAM_ADDR]` false. -/
def Instr.mayAnswer (c : Cfg) : Instr → List Byte
  | .selcmd _ | .seldata _ | .lupd _ | .init => [0x00, 0x01]
  | .qcmd | .qdata | .qready | .lasgn _ _ | .lset _ _ | .lclr _ _ | .rdcache _ | .settle _ | .valid _ | .hrst => [0x00]
  | .commit _ => [0x00, 0x01, 0x04]
  | .srst => [0x00, 0x01, 0x05]
  | .xout _ _ _ | .xin _ _ => [0x00, 0x01, 0x02, 0x03]
  | .pad _ _ => [0x00, 0x01, 0x02] ++ if writable c .wramAddr then [] else [0x04]
  | .play _ _ => [0x00, 0x01, 0x02, 0x03] ++ if writable c .wramAddr then [] else [0x04]

/-- The instructions with a wait that may hang (R321). -/
def Instr.mayHang : Instr → Bool
  | .lupd _ | .hrst | .srst | .xout _ _ _ | .xin _ _ | .pad _ _ | .play _ _ => true
  | .selcmd _ | .seldata _ | .qcmd | .qdata | .qready | .lasgn _ _ | .lset _ _ | .lclr _ _ | .commit _
  | .rdcache _ | .settle _ | .init | .valid _ => false

/-- The instructions whose effect depends on a received byte: a register read and a transfer in (R122, R124). -/
def Instr.readsBus : Instr → Bool
  | .lupd _ | .xin _ _ | .pad _ _ | .play _ _ => true
  | .selcmd _ | .seldata _ | .qcmd | .qdata | .qready | .lasgn _ _ | .lset _ _ | .lclr _ _ | .commit _
  | .rdcache _ | .settle _ | .hrst | .srst | .init | .valid _ | .xout _ _ _ => false

end Sys2Proof
end

