-- ==== Sys2Proof/Certificates/Slice0/Obligations.lean ====
section
/-! DEFINITION. The statements for the provers. Each docstring names the rule of spec/ it formalises. -/

open Sys2Proof Sys2Proof.Machine

/-! ## Encoding -/

/-- Decoding an encoded well-formed instruction gives it back (R101, R102, R103, R110, R111). -/
def Obligations.DecodeEncodeRoundTrip : Prop :=
  ∀ i : Instr, i.wf = true → decode (encode i) = .ok i

/-- Encoding what a command decodes to gives the command back: no bit and no payload byte is dropped. -/
def Obligations.EncodeDecodeRoundTrip : Prop :=
  ∀ (c : Command) (i : Instr), decode c = .ok i → encode i = c ∧ i.wf = true

/-- R114: a command decodes exactly when it matches a row, to an instruction of that row, and no word matches two
rows. -/
def Obligations.DecodeFollowsTheOneMatchingRow : Prop :=
  (∀ (c : Command) (o : Opcode), c.Matches o ↔ ∃ i, decode c = .ok i ∧ i.opcode = o) ∧
  (∀ (w : CommandWord) (o o' : Opcode),
    w &&& o.format.mask = o.code ++ 0#56 → w &&& o'.format.mask = o'.code ++ 0#56 → o = o')

/-- R103: every operand is its field of the word, unsigned. -/
def Obligations.OperandsAreUnsignedFields : Prop :=
  ∀ (c : Command) (i : Instr), decode c = .ok i →
    (∀ r, i.regOperand = some r → r.index.val = c.word.toNat / 2 ^ 48 % 2 ^ 4) ∧
    (∀ a, i.addrOperand = some a → a.toNat = c.word.toNat / 2 ^ 32 % 2 ^ 16) ∧
    (∀ n, i.lenOperand = some n → n.toNat = c.word.toNat % 2 ^ 32) ∧
    (∀ v, i.valOperand = some v → v.toNat = c.word.toNat % 2 ^ 16) ∧
    (∀ b, i.actOperand = some b → (b = true ↔ c.word.toNat % 2 = 1))

/-- R133: the words written out there decode to the instructions they stand for, whatever 65 bytes come with XOUT and
PLAY, and its three ill-formed words do not decode. -/
def Obligations.SpecWordsDecode : Prop :=
  decode ⟨0x0100000000000001#64, []⟩ = .ok (.selcmd true) ∧
  decode ⟨0x0200000000000000#64, []⟩ = .ok (.seldata false) ∧
  decode ⟨0x0500000000000000#64, []⟩ = .ok .qready ∧
  decode ⟨0x100B000000000000#64, []⟩ = .ok (.lupd .volume) ∧
  decode ⟨0x110B000000002020#64, []⟩ = .ok (.lasgn .volume 0x2020#16) ∧
  decode ⟨0x1200000000000004#64, []⟩ = .ok (.lset .mode 0x0004#16) ∧
  decode ⟨0x1403000000000000#64, []⟩ = .ok (.commit .clockConfig) ∧
  decode ⟨0x3000180000000000#64, []⟩ = .ok (.valid 0x1800#16) ∧
  (∀ p : List Byte, p.length = 65 →
    decode ⟨0x3100C00000000041#64, p⟩ = .ok (.xout 0xC000#16 65#32 p) ∧
    decode ⟨0x3400000000000041#64, p⟩ = .ok (.play 65#32 p)) ∧
  decode ⟨0x3300C00000000064#64, []⟩ = .ok (.pad 0xC000#16 100#32) ∧
  (∀ p i, decode ⟨0x0100000000000002#64, p⟩ ≠ .ok i ∧ decode ⟨0x1010000000000000#64, p⟩ ≠ .ok i ∧
    decode ⟨0x0600000000000000#64, p⟩ ≠ .ok i)

/-- R113: the reserved opcodes, and no others, are rejected as reserved. -/
def Obligations.ReservedOpcodesAreRejected : Prop :=
  ∀ c : Command, decode c = .error .reservedOpcode ↔
    let b := c.word.toNat / 2 ^ 56
    b = 0x00 ∨ (0x06 ≤ b ∧ b ≤ 0x0F) ∨ (0x17 ≤ b ∧ b ≤ 0x1F) ∨ (0x23 ≤ b ∧ b ≤ 0x2F) ∨ (0x35 ≤ b ∧ b ≤ 0xFF)

/-- R112: a command that matches no row changes the response register, appends its response and nothing else (the
command index counts the response, R54). -/
def Obligations.IllFormedCommandOnlyResponds : Prop :=
  ∀ (s : State) (c : Command) (cs : List Command),
    s.cfg.wf = true → s.hang = none → s.inbox = c :: cs → (∀ o, ¬ c.Matches o) →
    step s = .next ({ s with inbox := cs }.replied 0xFF#8 0 [] [])

/-! ## The step -/

/-- A step runs the instruction the host's next command decodes to. The command leaves the inbox; nothing else is
added around `exec`. -/
def Obligations.StepRunsTheDecodedCommand : Prop :=
  ∀ (s : State) (c : Command) (cs : List Command) (i : Instr),
    s.cfg.wf = true → s.hang = none → s.inbox = c :: cs → decode c = .ok i →
    step s = exec i { s with inbox := cs }

/-- Under a well-formed configuration a step always answers a next state (R22, R284: no command traps). -/
def Obligations.NoCommandTraps : Prop :=
  (∀ (i : Instr) (s : State), ∃ t, exec i s = .next t) ∧
  (∀ s : State, s.cfg.wf = true → ∃ t, step s = .next t)

/-- R22: a configuration that is not well formed is refused before any step. With no command the block waits (R310;
that a waiting block's step changes nothing is the model's reading, assumption log 5). -/
def Obligations.IllFormedConfigurationIsRefused : Prop :=
  (∀ s : State, s.cfg.wf = false → step s = .refused .illFormedConfiguration) ∧
  (∀ s : State, s.cfg.wf = true → s.hang = none → s.inbox = [] → step s = .next s)

/-- R9: a configuration is well formed exactly when every bound of the rule holds. -/
def Obligations.WellFormedConfigurationMeetsItsBounds : Prop :=
  ∀ c : Cfg, c.wf = true ↔
    (∀ f, 1 ≤ xtalRate c.xtal f) ∧
    (∀ m a x, 1 ≤ x → 1 ≤ multRate c.mult m a x) ∧
    (∀ r, nominalCycles c r ≤ 4294) ∧
    writable c .mode = true ∧ writable c .bass = true ∧ writable c .clockConfig = true ∧
    writable c .volume = true ∧ writable c .header0 = false ∧ writable c .header1 = false ∧
    1000 ≤ c.hardResetLowUs ∧
    (∀ i : Fin 4, c.forbidden[i].lo ≤ c.forbidden[i].hi ∧ c.forbidden[i].hi ≤ 0x10000)

/-! ## Reset and the coherent states -/

/-- R60: the value of every state element after block reset, under every configuration. -/
def Obligations.BlockResetValues : Prop :=
  ∀ c : Cfg, let s := State.resetWith c
    (∀ r, s.reg r = c.resetValue[r.index]) ∧ s.sel.cmd = false ∧ s.sel.data = false ∧ s.rst = .high ∧
    s.playing = false ∧ s.st.status = 0x00#8 ∧ s.st.value = 0 ∧ s.trace = [] ∧ s.k = 0

/-- Block reset gives a coherent state, under every configuration. -/
def Obligations.BlockResetIsCoherent : Prop :=
  ∀ c : Cfg, (State.resetWith c).Coherent

/-- Every step from a coherent state gives a coherent state (R48, R49, R50, R52, R53, R54, R266, R280). The exchange
count and the hang field are the model's own (assumption logs 3 and 4). -/
def Obligations.StepKeepsCoherence : Prop :=
  ∀ s t : State, s.Coherent → step s = .next t → t.Coherent

/-- R55: the trace starts empty at block reset and only grows. -/
def Obligations.TraceStartsEmptyAndOnlyGrows : Prop :=
  (∀ c : Cfg, (State.resetWith c).trace = []) ∧
  (∀ s t : State, step s = .next t → ∃ es, t.trace = s.trace ++ es)

/-- R54: the command index advances by exactly one when a command appends its `Resp` event, never otherwise; no step
appends two, and a response is the last event of its step. -/
def Obligations.CommandIndexCountsResponses : Prop :=
  ∀ s t : State, step s = .next t → ∃ es, t.trace = s.trace ++ es ∧ t.k = s.k + es.countP Event.isResp ∧
    es.dropLast.countP Event.isResp = 0

/-- R44, R7: no step changes the configuration, and no command takes more than itself from the host. -/
def Obligations.ConfigurationNeverChanges : Prop :=
  (∀ (i : Instr) (s t : State), exec i s = .next t → t.cfg = s.cfg ∧ t.inbox = s.inbox) ∧
  (∀ s t : State, step s = .next t → t.cfg = s.cfg)

/-! ## Hangs and completion -/

/-- R20: a command that hangs never ends: its loop goes round for ever, in the events R146 and R213 give it, and no
later command starts. A hang is held as assumption logs 3 and 4 say. -/
def Obligations.HangNeverEnds : Prop :=
  ∀ (n : Nat) (s : State) (h : Hang), s.cfg.wf = true → s.hang = some h →
    Host.Core.run Sys2Proof.core n s = .next (s.log (match h with
      | .readyWait => List.replicate n (Event.poll false)
      | .resetPoll => (List.replicate n [Event.delay 3, Event.poll false]).flatten))

/-- R20: in an environment that is ready at the end of its list, every command ends with its response. The draws are
held as assumption log 3 says. -/
def Obligations.FairEnvironmentEndsEveryCommand : Prop :=
  ∀ (i : Instr) (s : State), s.hang = none → s.env.dreqRest = true →
    ∃ t, exec i s = .next t ∧ t.hang = none ∧ t.k = s.k + 1 ∧
      t.env.dreqRest = true ∧ ∃ es, t.trace = s.trace ++ es ++ [Event.resp t.st.status t.st.value
        (match t.trace.getLast? with | some (.resp _ _ d) => d | _ => [])]

/-- R20, R321: a command hangs only in a wait it has, only after every listed sample was drawn and only in an
environment that stays not ready; it has then given no response. A hang is held as assumption logs 3 and 4 say. -/
def Obligations.HangOnlyWhereNeverReady : Prop :=
  ∀ (i : Instr) (s t : State), s.hang = none → exec i s = .next t → t.hang ≠ none →
    i.mayHang = true ∧ t.env.dreq = [] ∧ t.env.dreqRest = false ∧ s.env.dreqRest = false ∧
    t.k = s.k ∧ t.st = s.st ∧ t.trace.getLast? = some (Event.poll false)

/-- R146, R160, R240, R244, R260: with DREQ never sampled true, LUPD, XOUT, XIN and PLAY hang in their first
ready-wait, having done nothing but sample. A hang is held as assumption logs 3 and 4 say. -/
def Obligations.FirstReadyWaitHangs : Prop :=
  ∀ (i : Instr) (s : State), s.env.NeverReady →
    (match i with
      | .lupd _ | .xout _ _ _ | .xin _ _ | .play _ _ => True
      | _ => False) →
    exec i s = .next ({ s with env := s.env.withDreq [], hang := some .readyWait }.log
      (List.replicate (s.env.dreq.length + 1) (Event.poll false)))

/-! ## Whole-machine frames -/

/-- R42, and R266 for PLAY, whose padding fetches the fill byte (R260, R255): an instruction leaves every mirror entry
unchanged but those these rules let it write. -/
def Obligations.MirrorWriters : Prop :=
  ∀ (i : Instr) (s t : State) (r : Reg), exec i s = .next t → r ∉ i.mayWrite → t.reg r = s.reg r

/-- R50: only HRST and SRST write the reset line. R52, R265: only PLAY writes the playing flag. R140, R141: the
commands without a bus access and HRST leave the select lines alone. -/
def Obligations.LineAndFlagWriters : Prop :=
  ∀ (i : Instr) (s t : State), exec i s = .next t → ∃ es, t.trace = s.trace ++ es ∧
    ((i ≠ .hrst ∧ i ≠ .srst) → t.rst = s.rst ∧ es.countP (Event.isPin .xreset) = 0) ∧
    ((∀ n p, i ≠ .play n p) → t.playing = s.playing ∧ es.countP Event.isPlay = 0) ∧
    ((match i with
        | .qcmd | .qdata | .qready | .lasgn _ _ | .lset _ _ | .lclr _ _ | .rdcache _ | .settle _ | .valid _
        | .hrst => True
        | _ => False) →
      t.sel = s.sel ∧ es.countP (Event.isPin .xcs) = 0 ∧ es.countP (Event.isPin .xdcs) = 0 ∧
      es.countP Event.isXfer = 0)

/-- R282, R280: the codes a command may end with; a failure records value 0 and no data, and only XIN returns data. -/
def Obligations.CommandResponses : Prop :=
  ∀ (i : Instr) (s t : State), s.cfg.wf = true → s.hang = none → exec i s = .next t → t.hang = none →
    t.st.status ∈ i.mayAnswer s.cfg ∧
    ∃ es d, t.trace = s.trace ++ es ++ [Event.resp t.st.status t.st.value d] ∧
      (t.st.status ≠ 0x00#8 → t.st.value = 0 ∧ d = []) ∧
      ((∀ a n, i ≠ .xin a n) → d = [])

/-- R15, R43: a received byte reaches nothing but the readers of the bus: without LUPD, XIN, PAD and PLAY, two runs
that differ in the received bytes alone end alike and do the same on the lines. The draws are held as assumption log 3
says. -/
def Obligations.ReceivedBytesReachOnlyTheirReaders : Prop :=
  ∀ (i : Instr) (s : State) (rx : List Byte) (n : Nat), i.readsBus = false →
    ∃ t u, exec i s = .next t ∧ exec i { s with env := { s.env with rx := rx, rxCount := n } } = .next u ∧
      u.x = t.x ∧ u.sel = t.sel ∧ u.rst = t.rst ∧ u.playing = t.playing ∧ u.st = t.st ∧ u.k = t.k ∧
      u.hang = t.hang ∧ u.env.dreq = t.env.dreq ∧ u.sent = t.sent

/-! ## Chip Select Controller -/

/-- R140, R142: SELCMD. -/
def Obligations.SelcmdDrivesOrIsRefused : Prop :=
  ∀ (s : State) (b : Bool), exec (.selcmd b) s = .next (
    if b = true ∧ s.sel.data = true then s.replied 0x01#8 0 [] [Event.diag .arbitrationConflict .xcs]
    else { s with sel := ⟨b, s.sel.data⟩ }.replied 0x00#8 0 [] [Event.pin .xcs (if b then .low else .high)])

/-- R141, R143: SELDATA. -/
def Obligations.SeldataDrivesOrIsRefused : Prop :=
  ∀ (s : State) (b : Bool), exec (.seldata b) s = .next (
    if b = true ∧ s.sel.cmd = true then s.replied 0x01#8 0 [] [Event.diag .arbitrationConflict .xdcs]
    else { s with sel := ⟨s.sel.cmd, b⟩ }.replied 0x00#8 0 [] [Event.pin .xdcs (if b then .low else .high)])

/-- R144, R145: QCMD and QDATA answer the line's state and change only the response register. -/
def Obligations.QueriesAnswerTheSelectLines : Prop :=
  ∀ s : State,
    exec .qcmd s = .next (s.replied 0x00#8 (if s.sel.cmd then 1 else 0) [] []) ∧
    exec .qdata s = .next (s.replied 0x00#8 (if s.sel.data then 1 else 0) [] [])

/-- R147: QREADY takes exactly one sample, whatever it is, and answers it. The draws are held as assumption log 3
says. -/
def Obligations.QreadySamplesOnce : Prop :=
  ∀ s : State, exec .qready s = .next ({ s with env := s.env.withDreq s.env.dreq.tail }.replied 0x00#8
    (if s.env.sampleAt 0 then 1 else 0) [] [Event.poll (s.env.sampleAt 0)])

/-! ## Register File Model -/

/-- R162, R163, R164, R165: the local writes change one mirror entry, writable or not, and append only their response.
-/
def Obligations.LocalWritesChangeOneEntry : Prop :=
  ∀ (s : State) (r : Reg) (v : Word),
    (∃ t, exec (.lasgn r v) s = .next t ∧ t.reg r = v ∧ (∀ r', r' ≠ r → t.reg r' = s.reg r') ∧
      t = { s with x := t.x }.replied 0x00#8 0 [] []) ∧
    (∃ t, exec (.lset r v) s = .next t ∧ t.reg r = s.reg r ||| v ∧ (∀ r', r' ≠ r → t.reg r' = s.reg r') ∧
      t = { s with x := t.x }.replied 0x00#8 0 [] []) ∧
    (∃ t, exec (.lclr r v) s = .next t ∧ t.reg r = s.reg r &&& ~~~v ∧ (∀ r', r' ≠ r → t.reg r' = s.reg r') ∧
      t = { s with x := t.x }.replied 0x00#8 0 [] [])

/-- R170: RDCACHE answers the mirror entry, zero-extended, and changes only the response register. -/
def Obligations.RdcacheAnswersTheMirror : Prop :=
  ∀ (s : State) (r : Reg), ∃ v : Count, v.toNat = (s.reg r).toNat ∧
    exec (.rdcache r) s = .next (s.replied 0x00#8 v [] [])

/-- R160, R161: after its ready-wait LUPD stores the bytes received in the third and fourth exchanges, high byte
first, or is refused by an active data-select, with nothing exchanged and the mirror unchanged. The draws are held as
assumption log 3 says. -/
def Obligations.LupdReadsOneRegister : Prop :=
  ∀ (s : State) (r : Reg) (n : Nat) (ds : List Bool), s.env.ReadyAfter n ds →
    (s.sel.data = false → ∃ t, exec (.lupd r) s = .next t ∧
      (t.reg r).toNat = 256 * (s.env.rxAt 2).toNat + (s.env.rxAt 3).toNat ∧
      (∀ r', r' ≠ r → t.reg r' = s.reg r') ∧
      t = { s with x := t.x, sel := ⟨false, false⟩, env := (s.env.withDreq ds).dropRx 4 }.replied 0x00#8 0 []
        (waitEvents n ++ readFrame s.cfg s.env.rxAt r)) ∧
    (s.sel.data = true → exec (.lupd r) s = .next ({ s with env := s.env.withDreq ds }.replied 0x01#8 0 []
      (waitEvents n ++ [Event.diag .arbitrationConflict .xcs])))

/-- R167, R168: COMMIT sends the cached value in one frame and waits its settle time; a register that is not writable
is refused first, with no event, then an active data-select, with no wait. The mirror never changes. -/
def Obligations.CommitWritesOneFrame : Prop :=
  ∀ (s : State) (r : Reg),
    (writable s.cfg r = false → exec (.commit r) s = .next (s.replied 0x04#8 0 [] [])) ∧
    (writable s.cfg r = true → s.sel.data = true →
      exec (.commit r) s = .next (s.replied 0x01#8 0 [] [Event.diag .arbitrationConflict .xcs])) ∧
    (writable s.cfg r = true → s.sel.data = false →
      exec (.commit r) s = .next ({ s with sel := ⟨false, false⟩, env := s.env.dropRx 4 }.replied 0x00#8 0 []
        (writeFrame s.cfg s.env.rxAt r (s.reg r) (settleTime s r))))

/-! ## Settle time and address validity -/

/-- R190, R191, R192, R195: SETTLE answers the settle time computed from the cached CLOCK_CONFIG, in full, and changes
only the response register. -/
def Obligations.SettleAnswersTheSettleTime : Prop :=
  ∀ (s : State) (r : Reg), s.cfg.wf = true → ∃ v : Count,
    exec (.settle r) s = .next (s.replied 0x00#8 v [] []) ∧
    (∀ (f : BitVec 11) (a : BitVec 2) (m : BitVec 3),
      (s.reg .clockConfig).toNat = m.toNat * 2 ^ 13 + a.toNat * 2 ^ 11 + f.toNat →
      let xtal := xtalRate s.cfg.xtal f
      let rate := if r = .clockConfig then xtal else multRate s.cfg.mult m a xtal
      v.toNat = (1000000 * nominalCycles s.cfg r + rate - 1) / rate + 1)

/-- R193: the range of the settle time. -/
def Obligations.SettleTimeRange : Prop :=
  ∀ (c : Cfg) (clk : Word) (r : Reg), c.wf = true →
    1 ≤ settleFor c clk r ∧ settleFor c clk r ≤ 4294000001 ∧ settleFor c clk r < 2 ^ 32 ∧
    (settleFor c clk r = 1 ↔ nominalCycles c r = 0) ∧
    1000000 * nominalCycles c r + settleRate c clk r ≤ settleFor c clk r * settleRate c clk r ∧
    settleFor c clk r * settleRate c clk r < 1000000 * nominalCycles c r + 2 * settleRate c clk r

/-- R200, R201: VALID answers 0 exactly for an address in one of the four forbidden half-open ranges. -/
def Obligations.ValidTestsTheForbiddenRanges : Prop :=
  ∀ (s : State) (a : Addr), ∃ v : Count, exec (.valid a) s = .next (s.replied 0x00#8 v [] []) ∧
    (v = 0 ↔ ∃ i : Fin 4, s.cfg.forbidden[i].lo ≤ a.toNat ∧ a.toNat < s.cfg.forbidden[i].hi) ∧ (v = 0 ∨ v = 1)

/-! ## Resets and initialization -/

/-- R210, R212, R213, R214: HRST pulses the reset line and polls with 3 µs between samples; it changes no state but
the reset line, and hangs in the poll loop if DREQ is never sampled true. A hang is held as assumption logs 3 and 4
say. -/
def Obligations.HrstPulsesAndPolls : Prop :=
  ∀ s : State,
    (∀ n ds, s.env.ReadyAfter n ds →
      exec .hrst s = .next ({ s with rst := .high, env := s.env.withDreq ds }.replied 0x00#8 0 []
        ([Event.pin .xreset .low, Event.delay s.cfg.hardResetLowUs, Event.pin .xreset .high] ++ pollRounds n ++ [Event.poll true]))) ∧
    (s.env.NeverReady →
      exec .hrst s = .next ({ s with rst := .high, env := s.env.withDreq [], hang := some .resetPoll }.log
        ([Event.pin .xreset .low, Event.delay s.cfg.hardResetLowUs, Event.pin .xreset .high] ++
          pollRounds s.env.dreq.length ++ [Event.poll false])))

/-- R230, R231: INIT assigns and commits MODE, BASS, CLOCK_CONFIG and VOLUME in this order, the first two timed by the
old clock value and the last two by the new one; an active data-select stops it after the first assignment. -/
def Obligations.InitAssignsAndCommits : Prop :=
  ∀ s : State, s.cfg.wf = true →
    (s.sel.data = false → ∃ t, exec .init s = .next t ∧
      t.reg .mode = s.cfg.initValue.mode ∧ t.reg .bass = s.cfg.initValue.bass ∧
      t.reg .clockConfig = s.cfg.initValue.clockConfig ∧ t.reg .volume = s.cfg.initValue.volume ∧
      (∀ r, r ∉ [Reg.mode, .bass, .clockConfig, .volume] → t.reg r = s.reg r) ∧
      t = { s with x := t.x, sel := ⟨false, false⟩, env := s.env.dropRx 16 }.replied 0x00#8 0 []
        (writeFrame s.cfg s.env.rxAt .mode s.cfg.initValue.mode (settleTime s .mode) ++
         writeFrame s.cfg (s.env.dropRx 4).rxAt .bass s.cfg.initValue.bass (settleTime s .bass) ++
         writeFrame s.cfg (s.env.dropRx 8).rxAt .clockConfig s.cfg.initValue.clockConfig
           (settleFor s.cfg s.cfg.initValue.clockConfig .clockConfig) ++
         writeFrame s.cfg (s.env.dropRx 12).rxAt .volume s.cfg.initValue.volume
           (settleFor s.cfg s.cfg.initValue.clockConfig .volume))) ∧
    (s.sel.data = true → exec .init s = .next
      ((s.setReg .mode s.cfg.initValue.mode).replied 0x01#8 0 [] [Event.diag .arbitrationConflict .xcs]))

/-- R220, R221, R222, R223: a soft reset that samples DREQ true within its budget (at most 334 samples, R221) re-runs
the initialization and answers OK. The draws are held as assumption log 3 says. -/
def Obligations.SrstReinitialisesWhenReady : Prop :=
  ∀ (s : State) (n : Nat) (ds : List Bool), s.cfg.wf = true → s.sel.data = false →
    s.env.ReadyAfter n ds → n ≤ 333 → ∃ t, exec .srst s = .next t ∧
      t.reg .mode = s.cfg.initValue.mode ∧ t.reg .bass = s.cfg.initValue.bass ∧
      t.reg .clockConfig = s.cfg.initValue.clockConfig ∧ t.reg .volume = s.cfg.initValue.volume ∧
      (∀ r, r ∉ [Reg.mode, .bass, .clockConfig, .volume] → t.reg r = s.reg r) ∧
      t = { s with x := t.x, sel := ⟨false, false⟩, env := (s.env.withDreq ds).dropRx 20 }.replied 0x00#8 0 []
        (writeFrame s.cfg s.env.rxAt .mode (s.reg .mode ||| 1#16 <<< s.cfg.modeResetBit.val) (settleTime s .mode) ++
         pollRounds n ++ [Event.poll true] ++
         writeFrame s.cfg (s.env.dropRx 4).rxAt .mode s.cfg.initValue.mode (settleTime s .mode) ++
         writeFrame s.cfg (s.env.dropRx 8).rxAt .bass s.cfg.initValue.bass (settleTime s .bass) ++
         writeFrame s.cfg (s.env.dropRx 12).rxAt .clockConfig s.cfg.initValue.clockConfig
           (settleFor s.cfg s.cfg.initValue.clockConfig .clockConfig) ++
         writeFrame s.cfg (s.env.dropRx 16).rxAt .volume s.cfg.initValue.volume
           (settleFor s.cfg s.cfg.initValue.clockConfig .volume))

/-- R221, R223, R322: a soft reset whose 334 samples are all false hard-resets the chip and answers
FAIL_SOFT_RESET_TIMEOUT, with the reset bit still set in the mirror and no re-initialization; if DREQ is then never
sampled true it hangs in the hard reset. A hang is held as assumption logs 3 and 4 say. -/
def Obligations.SrstTimesOutIntoHardReset : Prop :=
  ∀ s : State, s.cfg.wf = true → s.sel.data = false → (∀ j, j < 334 → s.env.sampleAt j = false) →
    let v := s.reg .mode ||| 1#16 <<< s.cfg.modeResetBit.val
    let start := writeFrame s.cfg s.env.rxAt .mode v (settleTime s .mode) ++ pollRounds 333 ++ [Event.poll false] ++
      [Event.pin .xreset .low, Event.delay s.cfg.hardResetLowUs, Event.pin .xreset .high]
    let left := s.env.dreq.drop 334
    (∀ n ds, (s.env.withDreq left).ReadyAfter n ds →
      exec .srst s = .next ({ s.setReg .mode v with
          sel := ⟨false, false⟩, rst := .high, env := (s.env.withDreq ds).dropRx 4 }.replied 0x05#8 0 []
        (start ++ pollRounds n ++ [Event.poll true]))) ∧
    ((s.env.withDreq left).NeverReady →
      exec .srst s = .next ({ s.setReg .mode v with
          sel := ⟨false, false⟩, rst := .high, env := (s.env.withDreq []).dropRx 4,
          hang := some .resetPoll }.log (start ++ pollRounds left.length ++ [Event.poll false])))

/-- R220, R223: with data-select active SRST sets the reset bit in the mirror and is refused, with no poll and no
reset. -/
def Obligations.SrstIsRefusedByDataSelect : Prop :=
  ∀ s : State, s.cfg.wf = true → s.sel.data = true →
    exec .srst s = .next ((s.setReg .mode (s.reg .mode ||| 1#16 <<< s.cfg.modeResetBit.val)).replied 0x01#8 0 []
      [Event.diag .arbitrationConflict .xcs])

/-! ## Streaming Data Engine -/

/-- R240, R244, R245, R283: after the ready-wait a transfer of `n` bytes reports the first of these that applies: a
forbidden address, a size of zero, an active command-select. It has then driven no pin and exchanged no byte. The
draws are held as assumption log 3 says. -/
def Obligations.TransfersFailClosed : Prop :=
  ∀ (s : State) (i : Instr) (a : Addr) (m : Nat), ((∃ n p, i = .xout a n p ∧ m = p.length) ∨ (∃ n, i = .xin a n ∧ m = n.toNat)) →
    ∀ (k : Nat) (ds : List Bool), s.env.ReadyAfter k ds →
      let w := { s with env := s.env.withDreq ds }
      (validAddr s.cfg a = false → exec i s = .next (w.replied 0x02#8 0 [] (waitEvents k))) ∧
      (validAddr s.cfg a = true → m = 0 → exec i s = .next (w.replied 0x03#8 0 [] (waitEvents k))) ∧
      (validAddr s.cfg a = true → m ≠ 0 → s.sel.cmd = true →
        exec i s = .next (w.replied 0x01#8 0 [] (waitEvents k ++ [Event.diag .arbitrationConflict .xdcs])))

/-- R123, R240, R241, R242: XOUT sends the header and the payload in list order, with a resync before every index that
is a multiple of 32 but 0, and leaves data-select inactive. It changes nothing else. The draws are held as assumption
log 3 says. -/
def Obligations.XoutSendsThePayload : Prop :=
  ∀ (s : State) (a : Addr) (n : Count) (p : List Byte),
    validAddr s.cfg a = true → p ≠ [] → s.sel.cmd = false → s.env.Grants (1 + (p.length - 1) / 32) →
    ∃ t, exec (.xout a n p) s = .next t ∧
      t.sent = s.sent ++ dataFrame s.cfg s.cfg.opDataWrite a p ++ [Event.resp 0x00#8 0 []] ∧
      t.env = (s.env.withDreq t.env.dreq).dropRx (p.length + 2) ∧
      t = { s with sel := ⟨false, false⟩, env := t.env, st := ⟨0x00#8, 0⟩, tr := t.tr, k := s.k + 1 }

/-- R243: a successful transfer of `n` bytes performs `floor((n - 1) / 32)` resyncs, each a deassertion inside the
frame, and one ready-wait more. -/
def Obligations.TransferResyncCounts : Prop :=
  ∀ (s t : State) (i : Instr) (m : Nat), ((∃ a n p, i = .xout a n p ∧ m = p.length) ∨ (∃ a n, i = .xin a n ∧ m = n.toNat)) →
    s.hang = none → exec i s = .next t → t.hang = none → t.st.status = 0x00#8 → 1 ≤ m ∧
    ∃ es, t.trace = s.trace ++ es ∧
      es.count (Event.pin .xdcs .high) = (m - 1) / 32 + 1 ∧ es.count (Event.pin .xdcs .low) = (m - 1) / 32 + 1 ∧
      es.count (Event.poll true) = 1 + (m - 1) / 32 ∧ es.countP Event.isXfer = m + 2

/-- R124, R244, R246: XIN sends the header and fill bytes, with the resyncs of R241, and answers the bytes received in
the payload exchanges, in their order. It changes nothing else. The draws are held as assumption log 3 says. -/
def Obligations.XinReturnsTheReceivedBytes : Prop :=
  ∀ (s : State) (a : Addr) (n : Count),
    validAddr s.cfg a = true → n ≠ 0 → s.sel.cmd = false → s.env.Grants (1 + (n.toNat - 1) / 32) →
    ∃ t, exec (.xin a n) s = .next t ∧
      t.sent = s.sent ++ dataFrame s.cfg s.cfg.opDataRead a (List.replicate n.toNat s.cfg.txFill) ++
        [Event.resp 0x00#8 0 ((List.range n.toNat).map fun j => s.env.rxAt (2 + j))] ∧
      t.env = (s.env.withDreq t.env.dreq).dropRx (n.toNat + 2) ∧
      t = { s with sel := ⟨false, false⟩, env := t.env, st := ⟨0x00#8, 0⟩, tr := t.tr, k := s.k + 1 }

/-- R250, R255, R256, R257: PAD fetches the fill byte and sends `ceil_div(n, 32)` chunks of it, at `(a + 32 k) mod
2^16`, each its own frame; with `n = 0` it sends none and answers OK. The draws are held as assumption log 3 says. -/
def Obligations.PadSendsTheFillByte : Prop :=
  ∀ (s : State) (a : Addr) (n : Count),
    writable s.cfg .wramAddr = true → s.sel.data = false →
    (∀ k, 32 * k < n.toNat → validAddr s.cfg (a + BitVec.ofNat 16 (32 * k)) = true) →
    s.env.Grants (1 + (n.toNat + 31) / 32) →
    ∃ t, exec (.pad a n) s = .next t ∧
      t.reg .wramAddr = s.cfg.fillAddr ∧
      (t.reg .wramData).toNat = 256 * (s.env.rxAt 6).toNat + (s.env.rxAt 7).toNat ∧
      (∀ r, r ≠ .wramAddr → r ≠ .wramData → t.reg r = s.reg r) ∧
      t.sent = s.sent ++ fetchFrames s.cfg (s.reg .clockConfig) ++
        paddingFrames s.cfg a n.toNat (s.env.rxAt 7) ((n.toNat + 31) / 32) ++ [Event.resp 0x00#8 0 []] ∧
      t = { s with x := t.x, sel := ⟨false, false⟩, env := t.env, st := ⟨0x00#8, 0⟩, tr := t.tr, k := s.k + 1 }

/-- R250, R257: PAD stops at the first chunk whose address is forbidden, with the chunks before it sent. The draws are
held as assumption log 3 says. -/
def Obligations.PadStopsAtAForbiddenChunk : Prop :=
  ∀ (s : State) (a : Addr) (n : Count) (j : Nat),
    writable s.cfg .wramAddr = true → s.sel.data = false → 32 * j < n.toNat →
    (∀ k, k < j → validAddr s.cfg (a + BitVec.ofNat 16 (32 * k)) = true) →
    validAddr s.cfg (a + BitVec.ofNat 16 (32 * j)) = false →
    s.env.Grants (2 + j) →
    ∃ t, exec (.pad a n) s = .next t ∧
      t.sent = s.sent ++ fetchFrames s.cfg (s.reg .clockConfig) ++
        paddingFrames s.cfg a n.toNat (s.env.rxAt 7) j ++ [Event.poll true, Event.resp 0x02#8 0 []] ∧
      t = { s with x := t.x, sel := ⟨false, false⟩, env := t.env, st := ⟨0x02#8, 0⟩, tr := t.tr, k := s.k + 1 }

/-- R255, R257: a fill fetch that cannot commit WRAM_ADDR leaves FILL_ADDR in the mirror and sends nothing. -/
def Obligations.PadFetchFailures : Prop :=
  ∀ (s : State) (a : Addr) (n : Count),
    (writable s.cfg .wramAddr = false →
      exec (.pad a n) s = .next ((s.setReg .wramAddr s.cfg.fillAddr).replied 0x04#8 0 [] [])) ∧
    (writable s.cfg .wramAddr = true → s.sel.data = true →
      exec (.pad a n) s = .next ((s.setReg .wramAddr s.cfg.fillAddr).replied 0x01#8 0 []
        [Event.diag .arbitrationConflict .xcs]))

/-- R126, R260, R266: PLAY sends the preamble, sets the playing flag, sends the payload and 2052 padding bytes, waits
50 000 µs and clears the flag. The draws are held as assumption log 3 says. -/
def Obligations.PlayStreamsThePayload : Prop :=
  ∀ (s : State) (n : Count) (p : List Byte),
    s.sel.cmd = false → writable s.cfg .wramAddr = true → p ≠ [] →
    validAddr s.cfg s.cfg.playbackAddr = true →
    (∀ k, k < 65 → validAddr s.cfg (s.cfg.padAddr + BitVec.ofNat 16 (32 * k)) = true) →
    s.env.Grants (68 + (p.length - 1) / 32) →
    ∃ t, exec (.play n p) s = .next t ∧
      t.reg .wramAddr = s.cfg.fillAddr ∧
      (t.reg .wramData).toNat =
        256 * (s.env.rxAt (p.length + 10)).toNat + (s.env.rxAt (p.length + 11)).toNat ∧
      (∀ r, r ≠ .wramAddr → r ≠ .wramData → t.reg r = s.reg r) ∧
      t.sent = s.sent ++
        [Event.poll true, Event.pin .xdcs .low, Event.xfer 0x00#8 0, Event.xfer 0x00#8 0, Event.pin .xdcs .high, Event.play true] ++
        dataFrame s.cfg s.cfg.opDataWrite s.cfg.playbackAddr p ++ fetchFrames s.cfg (s.reg .clockConfig) ++
        paddingFrames s.cfg s.cfg.padAddr 2052 (s.env.rxAt (p.length + 11)) 65 ++
        [Event.delay 50000, Event.play false, Event.resp 0x00#8 0 []] ∧
      t = { s with
        x := t.x, sel := ⟨false, false⟩, playing := false, env := t.env, st := ⟨0x00#8, 0⟩, tr := t.tr,
        k := s.k + 1 }

/-- R260, R266: a payload transfer that fails skips the padding and the drain, and the flag is cleared. The draws are
held as assumption log 3 says. -/
def Obligations.PlaySkipsAfterAFailedTransfer : Prop :=
  ∀ (s : State) (n : Count) (p : List Byte), s.sel.cmd = false → s.env.Grants 2 →
    (validAddr s.cfg s.cfg.playbackAddr = false ∨ p = []) →
    ∃ t, exec (.play n p) s = .next t ∧
      let code : Byte := if validAddr s.cfg s.cfg.playbackAddr then 0x03#8 else 0x02#8
      t.sent = s.sent ++
        [Event.poll true, Event.pin .xdcs .low, Event.xfer 0x00#8 0, Event.xfer 0x00#8 0, Event.pin .xdcs .high, Event.play true,
         Event.poll true, Event.play false, Event.resp code 0 []] ∧
      t = { s with
        sel := ⟨false, false⟩, playing := false, env := t.env, st := ⟨code, 0⟩, tr := t.tr, k := s.k + 1 }

/-- R260, R265, R266: a PLAY whose preamble is refused writes no flag; every other PLAY that ends has written it true
and then false, and it is false whatever the outcome. The drain runs only after success. The draws are held as
assumption log 3 says. -/
def Obligations.PlayOwnsThePlayingFlag : Prop :=
  ∀ (s : State) (n : Count) (p : List Byte),
    (∀ m ds, s.env.ReadyAfter m ds → s.sel.cmd = true →
      exec (.play n p) s = .next ({ s with env := s.env.withDreq ds }.replied 0x01#8 0 []
        (waitEvents m ++ [Event.diag .arbitrationConflict .xdcs]))) ∧
    (∀ t, s.hang = none → s.sel.cmd = false → exec (.play n p) s = .next t → t.hang = none →
      t.playing = false ∧ ∃ es, t.trace = s.trace ++ es ∧
        es.filter Event.isPlay = [Event.play true, Event.play false] ∧
        (t.st.status = 0x00#8 ↔ Event.delay 50000 ∈ es.drop (es.length - 3)))

/-! ## Sequences of commands -/

/-- R79, R83, R132 (`WRREG`): a local write and a commit send the written value, and the mirror holds it. -/
def Obligations.WriteThenCommitSendsTheValue : Prop :=
  ∀ (s : State) (r : Reg) (v : Word) (cs : List Command),
    s.cfg.wf = true → s.hang = none → s.inbox = (Pseudo.wrreg r v).expand.map encode ++ cs →
    writable s.cfg r = true → s.sel.data = false →
    ∃ t, Host.Core.run Sys2Proof.core 2 s = .next t ∧ t.reg r = v ∧ (∀ r', r' ≠ r → t.reg r' = s.reg r') ∧
      t.inbox = cs ∧ t.k = s.k + 2 ∧
      t.trace = s.trace ++ [Event.resp 0x00#8 0 []] ++
        writeFrame s.cfg s.env.rxAt r v
          (settleFor s.cfg (if r = .clockConfig then v else s.reg .clockConfig) r) ++ [Event.resp 0x00#8 0 []]

/-- R83, R132 (`RDREG`): a local update and a read of the mirror answer the value the chip sent. The draws are held as
assumption log 3 says. -/
def Obligations.UpdateThenReadAnswersTheChip : Prop :=
  ∀ (s : State) (r : Reg) (cs : List Command) (n : Nat) (ds : List Bool),
    s.cfg.wf = true → s.hang = none → s.inbox = (Pseudo.rdreg r).expand.map encode ++ cs →
    s.sel.data = false → s.env.ReadyAfter n ds →
    ∃ t, Host.Core.run Sys2Proof.core 2 s = .next t ∧
      t.st.status = 0x00#8 ∧ t.st.value.toNat = 256 * (s.env.rxAt 2).toNat + (s.env.rxAt 3).toNat ∧
      t.inbox = cs ∧ t.k = s.k + 2 ∧ (∀ r', r' ≠ r → t.reg r' = s.reg r')
end

