-- ==== Sys2Proof/Laws/Encoding.lean ====
section
/-! SUPPORT. The laws of the command word: its fields as numbers, what the encoder puts in them, and what a command
that decodes must look like. -/

namespace Sys2Proof

/-! ## Fields as numbers (R101) -/

theorem opcField_toNat (w : CommandWord) : (opcField w).toNat = w.toNat / 2 ^ 56 := by
  have := w.isLt
  simp only [opcField, BitVec.extractLsb'_toNat, Nat.shiftRight_eq_div_pow]; omega

theorem regField_toNat (w : CommandWord) : (regField w).toNat = w.toNat / 2 ^ 48 % 2 ^ 4 := by
  simp only [regField, BitVec.extractLsb'_toNat, Nat.shiftRight_eq_div_pow]

theorem addrField_toNat (w : CommandWord) : (addrField w).toNat = w.toNat / 2 ^ 32 % 2 ^ 16 := by
  simp only [addrField, BitVec.extractLsb'_toNat, Nat.shiftRight_eq_div_pow]

theorem lenField_toNat (w : CommandWord) : (lenField w).toNat = w.toNat % 2 ^ 32 := by
  simp only [lenField, BitVec.extractLsb'_toNat, Nat.shiftRight_zero]

theorem valField_toNat (w : CommandWord) : (valField w).toNat = w.toNat % 2 ^ 16 := by
  simp only [valField, BitVec.extractLsb'_toNat, Nat.shiftRight_zero]

theorem actField_iff (w : CommandWord) : actField w = true ↔ w.toNat % 2 = 1 := by
  simp [actField, BitVec.getLsbD, Nat.testBit_zero]

theorem extract_eq_zero (w : CommandWord) (lo n : Nat) : w.extractLsb' lo n = 0 ↔ w.toNat / 2 ^ lo % 2 ^ n = 0 := by
  rw [← BitVec.toNat_inj]; simp [Nat.shiftRight_eq_div_pow]

/-- The reserved bits as numbers (R102). -/
theorem reservedBitsZero_iff (f : Format) (w : CommandWord) :
    reservedBitsZero f w = true ↔ ∀ z ∈ f.zeroFields, w.toNat / 2 ^ z.1 % 2 ^ z.2 = 0 := by
  simp only [reservedBitsZero, List.all_eq_true, beq_iff_eq, extract_eq_zero]

/-! ## The layout of a word -/

theorem layout_toNat (o : Byte) (r : BitVec 4) (a : Addr) (l : BitVec 32) :
    (layout o r a l).toNat = o.toNat * 2 ^ 56 + r.toNat * 2 ^ 48 + a.toNat * 2 ^ 32 + l.toNat := by
  have h1 := o.isLt
  have h2 := r.isLt
  have h3 := a.isLt
  have h4 := l.isLt
  simp only [layout, BitVec.toNat_append]
  rw [← Nat.shiftLeft_add_eq_or_of_lt (by omega : l.toNat < 2 ^ 32),
    ← Nat.shiftLeft_add_eq_or_of_lt (by simp only [Nat.shiftLeft_eq]; omega : _ < 2 ^ 48),
    ← Nat.shiftLeft_add_eq_or_of_lt (by simp only [Nat.shiftLeft_eq]; omega : _ < 2 ^ 52),
    ← Nat.shiftLeft_add_eq_or_of_lt (by simp only [Nat.shiftLeft_eq]; simp; omega : _ < 2 ^ 56)]
  simp only [Nat.shiftLeft_eq]; simp; omega

theorem lowVal_toNat (v : Word) : (lowVal v).toNat = v.toNat := by
  have := v.isLt
  rw [lowVal, BitVec.toNat_append, ← Nat.shiftLeft_add_eq_or_of_lt (by omega : v.toNat < 2 ^ 16)]; simp

theorem lowAct_toNat (b : Bool) : (lowAct b).toNat = b.toNat := by cases b <;> rfl

theorem opcField_layout (o : Byte) (r : BitVec 4) (a : Addr) (l : BitVec 32) : opcField (layout o r a l) = o := by
  apply BitVec.eq_of_toNat_eq
  have h1 := o.isLt
  have h2 := r.isLt
  have h3 := a.isLt
  have h4 := l.isLt
  rw [opcField_toNat, layout_toNat]; omega

theorem regField_layout (o : Byte) (r : BitVec 4) (a : Addr) (l : BitVec 32) : regField (layout o r a l) = r := by
  apply BitVec.eq_of_toNat_eq
  have h2 := r.isLt
  have h3 := a.isLt
  have h4 := l.isLt
  rw [regField_toNat, layout_toNat]; omega

theorem addrField_layout (o : Byte) (r : BitVec 4) (a : Addr) (l : BitVec 32) : addrField (layout o r a l) = a := by
  apply BitVec.eq_of_toNat_eq
  have h3 := a.isLt
  have h4 := l.isLt
  rw [addrField_toNat, layout_toNat]; omega

theorem lenField_layout (o : Byte) (r : BitVec 4) (a : Addr) (l : BitVec 32) : lenField (layout o r a l) = l := by
  apply BitVec.eq_of_toNat_eq
  have h4 := l.isLt
  rw [lenField_toNat, layout_toNat]; omega

theorem valField_layout (o : Byte) (r : BitVec 4) (a : Addr) (v : Word) :
    valField (layout o r a (lowVal v)) = v := by
  apply BitVec.eq_of_toNat_eq
  have h4 := v.isLt
  rw [valField_toNat, layout_toNat, lowVal_toNat]; omega

theorem actField_layout (o : Byte) (r : BitVec 4) (a : Addr) (b : Bool) :
    actField (layout o r a (lowAct b)) = b := by
  rw [Bool.eq_iff_iff, actField_iff, layout_toNat, lowAct_toNat]
  cases b <;> simp <;> omega

/-! ## The reserved bits of each format's words (R102) -/

theorem zero_n (o : Byte) : reservedBitsZero .n (layout o 0 0 0) = true := by
  have := o.isLt
  rw [reservedBitsZero_iff]; simp only [Format.zeroFields, List.mem_cons, List.not_mem_nil, or_false]
  rintro z rfl; simp only [layout_toNat, BitVec.ofNat_eq_ofNat, BitVec.toNat_ofNat]; omega

theorem zero_s (o : Byte) (b : Bool) : reservedBitsZero .s (layout o 0 0 (lowAct b)) = true := by
  have := o.isLt
  rw [reservedBitsZero_iff]; simp only [Format.zeroFields, List.mem_cons, List.not_mem_nil, or_false]
  rintro z rfl; simp only [layout_toNat, BitVec.ofNat_eq_ofNat, BitVec.toNat_ofNat, lowAct_toNat]
  cases b <;> simp <;> omega

theorem zero_r (o : Byte) (r : BitVec 4) : reservedBitsZero .r (layout o r 0 0) = true := by
  have := o.isLt
  have := r.isLt
  rw [reservedBitsZero_iff]; simp only [Format.zeroFields, List.mem_cons, List.not_mem_nil, or_false]
  rintro z (rfl | rfl) <;> simp only [layout_toNat, BitVec.ofNat_eq_ofNat, BitVec.toNat_ofNat] <;> omega

theorem zero_rv (o : Byte) (r : BitVec 4) (v : Word) : reservedBitsZero .rv (layout o r 0 (lowVal v)) = true := by
  have := o.isLt
  have := r.isLt
  have := v.isLt
  rw [reservedBitsZero_iff]; simp only [Format.zeroFields, List.mem_cons, List.not_mem_nil, or_false]
  rintro z (rfl | rfl) <;>
    simp only [layout_toNat, BitVec.ofNat_eq_ofNat, BitVec.toNat_ofNat, lowVal_toNat] <;> omega

theorem zero_a (o : Byte) (a : Addr) : reservedBitsZero .a (layout o 0 a 0) = true := by
  have := o.isLt
  have := a.isLt
  rw [reservedBitsZero_iff]; simp only [Format.zeroFields, List.mem_cons, List.not_mem_nil, or_false]
  rintro z (rfl | rfl) <;> simp only [layout_toNat, BitVec.ofNat_eq_ofNat, BitVec.toNat_ofNat] <;> omega

theorem zero_al (o : Byte) (a : Addr) (n : Count) : reservedBitsZero .al (layout o 0 a n) = true := by
  have := o.isLt
  have := a.isLt
  have := n.isLt
  rw [reservedBitsZero_iff]; simp only [Format.zeroFields, List.mem_cons, List.not_mem_nil, or_false]
  rintro z rfl; simp only [layout_toNat, BitVec.ofNat_eq_ofNat, BitVec.toNat_ofNat]; omega

theorem zero_l (o : Byte) (n : Count) : reservedBitsZero .l (layout o 0 0 n) = true := by
  have := o.isLt
  have := n.isLt
  rw [reservedBitsZero_iff]; simp only [Format.zeroFields, List.mem_cons, List.not_mem_nil, or_false]
  rintro z rfl; simp only [layout_toNat, BitVec.ofNat_eq_ofNat, BitVec.toNat_ofNat]; omega

/-! ## The opcode map (R110, R113) -/

theorem ofCode_code (o : Opcode) : Opcode.ofCode o.code = some o := by cases o <;> decide

theorem code_of_ofCode {b : Byte} {o : Opcode} (h : Opcode.ofCode b = some o) : o.code = b := by
  simpa using List.find?_some h

/-- What a command that decodes looks like. -/
theorem decode_cases {c : Command} {i : Instr} (h : decode c = .ok i) : ∃ o : Opcode, o.code = opcField c.word ∧
    reservedBitsZero o.format c.word = true ∧ checkPayload o c.word c.payload = .ok () ∧
    i = operands o c.word c.payload := by
  unfold decode at h
  split at h
  · cases h
  · next o ho =>
    split at h
    · split at h
      · injection h with h
        exact ⟨o, code_of_ofCode ho, ‹_›, ‹_›, h.symm⟩
      · cases h
    · cases h

/-- A command that looks like a row decodes to it. -/
theorem decode_of_row {c : Command} {o : Opcode} (ho : opcField c.word = o.code)
    (hz : reservedBitsZero o.format c.word = true) (hp : checkPayload o c.word c.payload = .ok ()) :
    decode c = .ok (operands o c.word c.payload) := by
  simp [decode, ho, ofCode_code, hz, hp]

end Sys2Proof
end

