-- ==== Sys2Proof/Laws/State.lean ====
section
/-! SUPPORT. The small laws of the state: one lemma per field per update, the mirror as an array, and the
environment's draws. -/

namespace Sys2Proof.Machine

/-! ## One lemma per field per update -/

/-! ### `emit` -/

@[simp] theorem emit_x (e : Event) (s : State) : (emit e s).x = s.x := rfl
@[simp] theorem emit_sel (e : Event) (s : State) : (emit e s).sel = s.sel := rfl
@[simp] theorem emit_rst (e : Event) (s : State) : (emit e s).rst = s.rst := rfl
@[simp] theorem emit_playing (e : Event) (s : State) : (emit e s).playing = s.playing := rfl
@[simp] theorem emit_st (e : Event) (s : State) : (emit e s).st = s.st := rfl
@[simp] theorem emit_tr (e : Event) (s : State) : (emit e s).tr = e :: s.tr := rfl
@[simp] theorem emit_k (e : Event) (s : State) : (emit e s).k = s.k := rfl
@[simp] theorem emit_cfg (e : Event) (s : State) : (emit e s).cfg = s.cfg := rfl
@[simp] theorem emit_env (e : Event) (s : State) : (emit e s).env = s.env := rfl
@[simp] theorem emit_inbox (e : Event) (s : State) : (emit e s).inbox = s.inbox := rfl
@[simp] theorem emit_hang (e : Event) (s : State) : (emit e s).hang = s.hang := rfl

/-! ### `log` -/

@[simp] theorem log_x (s : State) (es : List Event) : (s.log es).x = s.x := rfl
@[simp] theorem log_sel (s : State) (es : List Event) : (s.log es).sel = s.sel := rfl
@[simp] theorem log_rst (s : State) (es : List Event) : (s.log es).rst = s.rst := rfl
@[simp] theorem log_playing (s : State) (es : List Event) : (s.log es).playing = s.playing := rfl
@[simp] theorem log_st (s : State) (es : List Event) : (s.log es).st = s.st := rfl
@[simp] theorem log_tr (s : State) (es : List Event) : (s.log es).tr = es.reverse ++ s.tr := rfl
@[simp] theorem log_k (s : State) (es : List Event) : (s.log es).k = s.k := rfl
@[simp] theorem log_cfg (s : State) (es : List Event) : (s.log es).cfg = s.cfg := rfl
@[simp] theorem log_env (s : State) (es : List Event) : (s.log es).env = s.env := rfl
@[simp] theorem log_inbox (s : State) (es : List Event) : (s.log es).inbox = s.inbox := rfl
@[simp] theorem log_hang (s : State) (es : List Event) : (s.log es).hang = s.hang := rfl

/-! ### `delay` -/

@[simp] theorem delay_x (us : Nat) (s : State) : (delay us s).x = s.x := rfl
@[simp] theorem delay_sel (us : Nat) (s : State) : (delay us s).sel = s.sel := rfl
@[simp] theorem delay_rst (us : Nat) (s : State) : (delay us s).rst = s.rst := rfl
@[simp] theorem delay_playing (us : Nat) (s : State) : (delay us s).playing = s.playing := rfl
@[simp] theorem delay_st (us : Nat) (s : State) : (delay us s).st = s.st := rfl
@[simp] theorem delay_tr (us : Nat) (s : State) : (delay us s).tr = .delay us :: s.tr := rfl
@[simp] theorem delay_k (us : Nat) (s : State) : (delay us s).k = s.k := rfl
@[simp] theorem delay_cfg (us : Nat) (s : State) : (delay us s).cfg = s.cfg := rfl
@[simp] theorem delay_env (us : Nat) (s : State) : (delay us s).env = s.env := rfl
@[simp] theorem delay_inbox (us : Nat) (s : State) : (delay us s).inbox = s.inbox := rfl
@[simp] theorem delay_hang (us : Nat) (s : State) : (delay us s).hang = s.hang := rfl

/-! ### `setReg` -/

@[simp] theorem setReg_x (s : State) (r : Reg) (v : Word) : (s.setReg r v).x = s.x.set r.index v := rfl
@[simp] theorem setReg_sel (s : State) (r : Reg) (v : Word) : (s.setReg r v).sel = s.sel := rfl
@[simp] theorem setReg_rst (s : State) (r : Reg) (v : Word) : (s.setReg r v).rst = s.rst := rfl
@[simp] theorem setReg_playing (s : State) (r : Reg) (v : Word) : (s.setReg r v).playing = s.playing := rfl
@[simp] theorem setReg_st (s : State) (r : Reg) (v : Word) : (s.setReg r v).st = s.st := rfl
@[simp] theorem setReg_tr (s : State) (r : Reg) (v : Word) : (s.setReg r v).tr = s.tr := rfl
@[simp] theorem setReg_k (s : State) (r : Reg) (v : Word) : (s.setReg r v).k = s.k := rfl
@[simp] theorem setReg_cfg (s : State) (r : Reg) (v : Word) : (s.setReg r v).cfg = s.cfg := rfl
@[simp] theorem setReg_env (s : State) (r : Reg) (v : Word) : (s.setReg r v).env = s.env := rfl
@[simp] theorem setReg_inbox (s : State) (r : Reg) (v : Word) : (s.setReg r v).inbox = s.inbox := rfl
@[simp] theorem setReg_hang (s : State) (r : Reg) (v : Word) : (s.setReg r v).hang = s.hang := rfl

/-! ### `driveReset` -/

@[simp] theorem driveReset_x (l : Level) (s : State) : (driveReset l s).x = s.x := rfl
@[simp] theorem driveReset_sel (l : Level) (s : State) : (driveReset l s).sel = s.sel := rfl
@[simp] theorem driveReset_rst (l : Level) (s : State) : (driveReset l s).rst = l := rfl
@[simp] theorem driveReset_playing (l : Level) (s : State) : (driveReset l s).playing = s.playing := rfl
@[simp] theorem driveReset_st (l : Level) (s : State) : (driveReset l s).st = s.st := rfl
@[simp] theorem driveReset_tr (l : Level) (s : State) : (driveReset l s).tr = .pin .xreset l :: s.tr := rfl
@[simp] theorem driveReset_k (l : Level) (s : State) : (driveReset l s).k = s.k := rfl
@[simp] theorem driveReset_cfg (l : Level) (s : State) : (driveReset l s).cfg = s.cfg := rfl
@[simp] theorem driveReset_env (l : Level) (s : State) : (driveReset l s).env = s.env := rfl
@[simp] theorem driveReset_inbox (l : Level) (s : State) : (driveReset l s).inbox = s.inbox := rfl
@[simp] theorem driveReset_hang (l : Level) (s : State) : (driveReset l s).hang = s.hang := rfl

/-! ### `setPlaying` -/

@[simp] theorem setPlaying_x (v : Bool) (s : State) : (setPlaying v s).x = s.x := rfl
@[simp] theorem setPlaying_sel (v : Bool) (s : State) : (setPlaying v s).sel = s.sel := rfl
@[simp] theorem setPlaying_rst (v : Bool) (s : State) : (setPlaying v s).rst = s.rst := rfl
@[simp] theorem setPlaying_playing (v : Bool) (s : State) : (setPlaying v s).playing = v := rfl
@[simp] theorem setPlaying_st (v : Bool) (s : State) : (setPlaying v s).st = s.st := rfl
@[simp] theorem setPlaying_tr (v : Bool) (s : State) : (setPlaying v s).tr = .play v :: s.tr := rfl
@[simp] theorem setPlaying_k (v : Bool) (s : State) : (setPlaying v s).k = s.k := rfl
@[simp] theorem setPlaying_cfg (v : Bool) (s : State) : (setPlaying v s).cfg = s.cfg := rfl
@[simp] theorem setPlaying_env (v : Bool) (s : State) : (setPlaying v s).env = s.env := rfl
@[simp] theorem setPlaying_inbox (v : Bool) (s : State) : (setPlaying v s).inbox = s.inbox := rfl
@[simp] theorem setPlaying_hang (v : Bool) (s : State) : (setPlaying v s).hang = s.hang := rfl

/-! ### `send` -/

@[simp] theorem send_x (b : Byte) (s : State) : (send b s).x = s.x := rfl
@[simp] theorem send_sel (b : Byte) (s : State) : (send b s).sel = s.sel := rfl
@[simp] theorem send_rst (b : Byte) (s : State) : (send b s).rst = s.rst := rfl
@[simp] theorem send_playing (b : Byte) (s : State) : (send b s).playing = s.playing := rfl
@[simp] theorem send_st (b : Byte) (s : State) : (send b s).st = s.st := rfl
@[simp] theorem send_tr (b : Byte) (s : State) : (send b s).tr = .xfer b (s.env.rxAt 0) :: s.tr := rfl
@[simp] theorem send_k (b : Byte) (s : State) : (send b s).k = s.k := rfl
@[simp] theorem send_cfg (b : Byte) (s : State) : (send b s).cfg = s.cfg := rfl
@[simp] theorem send_env (b : Byte) (s : State) : (send b s).env = s.env.dropRx 1 := rfl
@[simp] theorem send_inbox (b : Byte) (s : State) : (send b s).inbox = s.inbox := rfl
@[simp] theorem send_hang (b : Byte) (s : State) : (send b s).hang = s.hang := rfl

/-! ### `respond` -/

@[simp] theorem respond_x (p : Reply) (s : State) : (respond p s).x = s.x := rfl
@[simp] theorem respond_sel (p : Reply) (s : State) : (respond p s).sel = s.sel := rfl
@[simp] theorem respond_rst (p : Reply) (s : State) : (respond p s).rst = s.rst := rfl
@[simp] theorem respond_playing (p : Reply) (s : State) : (respond p s).playing = s.playing := rfl
@[simp] theorem respond_st (p : Reply) (s : State) : (respond p s).st = ⟨p.status.code, p.value⟩ := rfl
@[simp] theorem respond_tr (p : Reply) (s : State) : (respond p s).tr = .resp p.status.code p.value p.data :: s.tr := rfl
@[simp] theorem respond_k (p : Reply) (s : State) : (respond p s).k = s.k + 1 := rfl
@[simp] theorem respond_cfg (p : Reply) (s : State) : (respond p s).cfg = s.cfg := rfl
@[simp] theorem respond_env (p : Reply) (s : State) : (respond p s).env = s.env := rfl
@[simp] theorem respond_inbox (p : Reply) (s : State) : (respond p s).inbox = s.inbox := rfl
@[simp] theorem respond_hang (p : Reply) (s : State) : (respond p s).hang = s.hang := rfl

/-! ## The mirror -/

theorem Reg.index_injective : ∀ {r r' : Reg}, r.index = r'.index → r = r' := by
  intro r r'; cases r <;> cases r' <;> decide

@[simp] theorem Reg.ofBits_bits (r : Reg) : Reg.ofBits r.bits = r := by cases r <;> rfl

theorem Reg.bits_ofBits : ∀ b : BitVec 4, (Reg.ofBits b).bits = b := by decide

/-- A write to the mirror is seen by the next read of the entry (R79). -/
@[simp] theorem reg_setReg_same (s : State) (r : Reg) (v : Word) : (s.setReg r v).reg r = v := by
  simp [State.reg, State.setReg]

/-- A write to one mirror entry leaves the others alone. -/
theorem reg_setReg_other {s : State} {r r' : Reg} {v : Word} (h : r' ≠ r) : (s.setReg r v).reg r' = s.reg r' := by
  have : (r.index : Nat) ≠ r'.index := fun e => h (Reg.index_injective (Fin.ext e.symm))
  simp [State.reg, State.setReg, Vector.getElem_set_ne, this]

theorem reg_setReg (s : State) (r r' : Reg) (v : Word) :
    (s.setReg r v).reg r' = if r' = r then v else s.reg r' := by
  split
  · next h => subst h; exact reg_setReg_same ..
  · next h => exact reg_setReg_other h

/-- Reading an entry sees only the mirror. -/
theorem reg_congr {s t : State} (h : t.x = s.x) (r : Reg) : t.reg r = s.reg r := by simp [State.reg, h]

/-! ## The trace -/

@[simp] theorem trace_log (s : State) (es : List Event) : (s.log es).trace = s.trace ++ es := by
  simp [State.trace, State.log]

@[simp] theorem trace_emit (s : State) (e : Event) : (emit e s).trace = s.trace ++ [e] := by
  simp [State.trace, emit]

@[simp] theorem trace_replied (s : State) (c : Byte) (v : Count) (d : List Byte) (es : List Event) :
    (s.replied c v d es).trace = s.trace ++ (es ++ [.resp c v d]) := by
  simp [State.trace, State.replied]

theorem emit_eq_log (e : Event) (s : State) : emit e s = s.log [e] := rfl

@[simp] theorem log_nil (s : State) : s.log [] = s := rfl

@[simp] theorem log_log (s : State) (a b : List Event) : (s.log a).log b = s.log (a ++ b) := by
  simp [State.log]

/-- The end of a command, from the state its events were logged in. -/
theorem respond_log (p : Reply) (s : State) (es : List Event) :
    respond p (s.log es) = s.replied p.status.code p.value p.data es := by
  simp [respond, State.log, State.replied]

theorem respond_eq_replied (p : Reply) (s : State) :
    respond p s = s.replied p.status.code p.value p.data [] := by
  simp [respond, State.replied]

/-! ## What a trace says, event by event -/

@[simp] theorem isResp_pin (q : Pin) (l : Level) : Event.isResp (.pin q l) = false := rfl
@[simp] theorem isXfer_pin (q : Pin) (l : Level) : Event.isXfer (.pin q l) = false := rfl
@[simp] theorem isPlay_pin (q : Pin) (l : Level) : Event.isPlay (.pin q l) = false := rfl
@[simp] theorem isPin_pin (p q : Pin) (l : Level) : Event.isPin p (.pin q l) = decide (q = p) := rfl
@[simp] theorem lastPin_pin (p q : Pin) (l : Level) (es : List Event) :
    lastPin p (.pin q l :: es) = if q = p then l else lastPin p es := rfl
@[simp] theorem lastPlay_pin (q : Pin) (l : Level) (es : List Event) : lastPlay (.pin q l :: es) = lastPlay es := rfl
@[simp] theorem lastResp_pin (q : Pin) (l : Level) (es : List Event) : lastResp (.pin q l :: es) = lastResp es := rfl
@[simp] theorem busAllows_xcs_low (es : List Event) : busAllows (.pin .xcs .low) es = (lastPin .xdcs es == .high) := rfl
@[simp] theorem busAllows_xdcs_low (es : List Event) : busAllows (.pin .xdcs .low) es = (lastPin .xcs es == .high) := rfl
@[simp] theorem busAllows_high (p : Pin) (es : List Event) : busAllows (.pin p .high) es = true := by cases p <;> rfl
@[simp] theorem busAllows_xreset (l : Level) (es : List Event) : busAllows (.pin .xreset l) es = true := by cases l <;> rfl
@[simp] theorem isResp_poll (v : Bool) : Event.isResp (.poll v) = false := rfl
@[simp] theorem isXfer_poll (v : Bool) : Event.isXfer (.poll v) = false := rfl
@[simp] theorem isPlay_poll (v : Bool) : Event.isPlay (.poll v) = false := rfl
@[simp] theorem isPin_poll (p : Pin) (v : Bool) : Event.isPin p (.poll v) = false := rfl
@[simp] theorem lastPin_poll (p : Pin) (v : Bool) (es : List Event) : lastPin p (.poll v :: es) = lastPin p es := rfl
@[simp] theorem lastPlay_poll (v : Bool) (es : List Event) : lastPlay (.poll v :: es) = lastPlay es := rfl
@[simp] theorem lastResp_poll (v : Bool) (es : List Event) : lastResp (.poll v :: es) = lastResp es := rfl
@[simp] theorem busAllows_poll (v : Bool) (es : List Event) : busAllows (.poll v) es = true := rfl
@[simp] theorem isResp_xfer (a b : Byte) : Event.isResp (.xfer a b) = false := rfl
@[simp] theorem isXfer_xfer (a b : Byte) : Event.isXfer (.xfer a b) = true := rfl
@[simp] theorem isPlay_xfer (a b : Byte) : Event.isPlay (.xfer a b) = false := rfl
@[simp] theorem isPin_xfer (p : Pin) (a b : Byte) : Event.isPin p (.xfer a b) = false := rfl
@[simp] theorem lastPin_xfer (p : Pin) (a b : Byte) (es : List Event) : lastPin p (.xfer a b :: es) = lastPin p es := rfl
@[simp] theorem lastPlay_xfer (a b : Byte) (es : List Event) : lastPlay (.xfer a b :: es) = lastPlay es := rfl
@[simp] theorem lastResp_xfer (a b : Byte) (es : List Event) : lastResp (.xfer a b :: es) = lastResp es := rfl
@[simp] theorem busAllows_xfer (a b : Byte) (es : List Event) :
    busAllows (.xfer a b) es = (lastPin .xcs es != lastPin .xdcs es) := rfl
@[simp] theorem isResp_delay (u : Nat) : Event.isResp (.delay u) = false := rfl
@[simp] theorem isXfer_delay (u : Nat) : Event.isXfer (.delay u) = false := rfl
@[simp] theorem isPlay_delay (u : Nat) : Event.isPlay (.delay u) = false := rfl
@[simp] theorem isPin_delay (p : Pin) (u : Nat) : Event.isPin p (.delay u) = false := rfl
@[simp] theorem lastPin_delay (p : Pin) (u : Nat) (es : List Event) : lastPin p (.delay u :: es) = lastPin p es := rfl
@[simp] theorem lastPlay_delay (u : Nat) (es : List Event) : lastPlay (.delay u :: es) = lastPlay es := rfl
@[simp] theorem lastResp_delay (u : Nat) (es : List Event) : lastResp (.delay u :: es) = lastResp es := rfl
@[simp] theorem busAllows_delay (u : Nat) (es : List Event) : busAllows (.delay u) es = true := rfl
@[simp] theorem isResp_diag (d : DiagKind) (p : Pin) : Event.isResp (.diag d p) = false := rfl
@[simp] theorem isXfer_diag (d : DiagKind) (p : Pin) : Event.isXfer (.diag d p) = false := rfl
@[simp] theorem isPlay_diag (d : DiagKind) (p : Pin) : Event.isPlay (.diag d p) = false := rfl
@[simp] theorem isPin_diag (p : Pin) (d : DiagKind) (p' : Pin) : Event.isPin p (.diag d p') = false := rfl
@[simp] theorem lastPin_diag (p : Pin) (d : DiagKind) (p' : Pin) (es : List Event) : lastPin p (.diag d p' :: es) = lastPin p es := rfl
@[simp] theorem lastPlay_diag (d : DiagKind) (p : Pin) (es : List Event) : lastPlay (.diag d p :: es) = lastPlay es := rfl
@[simp] theorem lastResp_diag (d : DiagKind) (p : Pin) (es : List Event) : lastResp (.diag d p :: es) = lastResp es := rfl
@[simp] theorem busAllows_diag (d : DiagKind) (p : Pin) (es : List Event) : busAllows (.diag d p) es = true := rfl
@[simp] theorem isResp_play (v : Bool) : Event.isResp (.play v) = false := rfl
@[simp] theorem isXfer_play (v : Bool) : Event.isXfer (.play v) = false := rfl
@[simp] theorem isPlay_play (v : Bool) : Event.isPlay (.play v) = true := rfl
@[simp] theorem isPin_play (p : Pin) (v : Bool) : Event.isPin p (.play v) = false := rfl
@[simp] theorem lastPin_play (p : Pin) (v : Bool) (es : List Event) : lastPin p (.play v :: es) = lastPin p es := rfl
@[simp] theorem lastPlay_play (v : Bool) (es : List Event) : lastPlay (.play v :: es) = v := rfl
@[simp] theorem lastResp_play (v : Bool) (es : List Event) : lastResp (.play v :: es) = lastResp es := rfl
@[simp] theorem busAllows_play (v : Bool) (es : List Event) : busAllows (.play v) es = true := rfl
@[simp] theorem isResp_resp (c : Byte) (v : Count) (d : List Byte) : Event.isResp (.resp c v d) = true := rfl
@[simp] theorem isXfer_resp (c : Byte) (v : Count) (d : List Byte) : Event.isXfer (.resp c v d) = false := rfl
@[simp] theorem isPlay_resp (c : Byte) (v : Count) (d : List Byte) : Event.isPlay (.resp c v d) = false := rfl
@[simp] theorem isPin_resp (p : Pin) (c : Byte) (v : Count) (d : List Byte) : Event.isPin p (.resp c v d) = false := rfl
@[simp] theorem lastPin_resp (p : Pin) (c : Byte) (v : Count) (d : List Byte) (es : List Event) : lastPin p (.resp c v d :: es) = lastPin p es := rfl
@[simp] theorem lastPlay_resp (c : Byte) (v : Count) (d : List Byte) (es : List Event) : lastPlay (.resp c v d :: es) = lastPlay es := rfl
@[simp] theorem lastResp_resp (c : Byte) (v : Count) (d : List Byte) (es : List Event) : lastResp (.resp c v d :: es) = ⟨c, v⟩ := rfl
@[simp] theorem busAllows_resp (c : Byte) (v : Count) (d : List Byte) (es : List Event) : busAllows (.resp c v d) es = true := rfl
@[simp] theorem busDiscipline_cons (e : Event) (es : List Event) :
    busDiscipline (e :: es) = (busDiscipline es && busAllows e es) := rfl

/-! ## The environment -/

@[simp] theorem dropRx_dreq (e : Env) (n : Nat) : (e.dropRx n).dreq = e.dreq := rfl
@[simp] theorem dropRx_dreqRest (e : Env) (n : Nat) : (e.dropRx n).dreqRest = e.dreqRest := rfl
@[simp] theorem dropRx_rxCount (e : Env) (n : Nat) : (e.dropRx n).rxCount = e.rxCount + n := rfl
@[simp] theorem withDreq_dreq (e : Env) (ds : List Bool) : (e.withDreq ds).dreq = ds := rfl
@[simp] theorem withDreq_dreqRest (e : Env) (ds : List Bool) : (e.withDreq ds).dreqRest = e.dreqRest := rfl
@[simp] theorem withDreq_rxCount (e : Env) (ds : List Bool) : (e.withDreq ds).rxCount = e.rxCount := rfl
@[simp] theorem withDreq_withDreq (e : Env) (a b : List Bool) : (e.withDreq a).withDreq b = e.withDreq b := rfl
@[simp] theorem withDreq_rxAt (e : Env) (ds : List Bool) (j : Nat) : (e.withDreq ds).rxAt j = e.rxAt j := rfl
@[simp] theorem withDreq_self (e : Env) : e.withDreq e.dreq = e := rfl

@[simp] theorem dropRx_zero (e : Env) : e.dropRx 0 = e := by simp [Env.dropRx]

@[simp] theorem dropRx_dropRx (e : Env) (m n : Nat) : (e.dropRx m).dropRx n = e.dropRx (m + n) := by
  simp [Env.dropRx, Nat.add_assoc]

@[simp] theorem rxAt_dropRx (e : Env) (n j : Nat) : (e.dropRx n).rxAt j = e.rxAt (n + j) := by
  simp [Env.rxAt, Env.dropRx, Nat.add_assoc]

@[simp] theorem dropRx_withDreq (e : Env) (n : Nat) (ds : List Bool) :
    (e.dropRx n).withDreq ds = (e.withDreq ds).dropRx n := rfl

/-- Either DREQ is sampled true after some false samples, or it never is (R20). -/
theorem Env.ready_or_never (e : Env) : (∃ n ds, e.ReadyAfter n ds) ∨ e.NeverReady := by
  obtain ⟨ds, rest, rx, c⟩ := e
  induction ds with
  | nil => cases rest with
    | true => exact .inl ⟨0, [], .inr ⟨rfl, rfl, rfl⟩⟩
    | false => exact .inr ⟨by simp, rfl⟩
  | cons b bs ih => cases b with
    | true => exact .inl ⟨0, bs, .inl rfl⟩
    | false =>
      rcases ih with ⟨n, ds, h | ⟨h, h', h''⟩⟩ | ⟨h, h'⟩
      · exact .inl ⟨n + 1, ds, .inl (by simpa [List.replicate_succ] using h)⟩
      · exact .inl ⟨n + 1, ds, .inr ⟨by simpa [List.replicate_succ] using h, h', h''⟩⟩
      · exact .inr ⟨by simpa using h, h'⟩

end Sys2Proof.Machine
end

