-- ==== Sys2Proof/Laws/Ops.lean ====
section
/-! SUPPORT. One specification lemma per shared operation: what it answers, and in which state. -/

namespace Sys2Proof.Machine

@[simp] theorem bind_done {α β : Type} (a : α) (s : State) (f : α → State → Res β) :
    (Res.done a s).bind f = f a s := rfl

@[simp] theorem bind_hung {α β : Type} (h : Hang) (s : State) (f : α → State → Res β) :
    (Res.hung h s).bind f = .hung h s := rfl

@[simp] theorem finish_done (p : Reply) (s : State) : finish (.done p s) = .next (respond p s) := rfl

@[simp] theorem finish_hung (h : Hang) (s : State) : finish (.hung h s) = .next { s with hang := some h } := rfl

/-! ## The ready-wait (R146) -/

theorem waitLoop_readyAfter (n : Nat) (ds : List Bool) :
    ∀ s : State, s.env.ReadyAfter n ds →
      waitLoop s.env.dreq s = .done () ({ s with env := s.env.withDreq ds }.log (waitEvents n)) := by
  induction n with
  | zero =>
    rintro ⟨x, sel, rst, playing, st, tr, k, cfg, ⟨dreq, rest, rx, c⟩, inbox, hang⟩
      (h | ⟨h, h', h''⟩) <;> simp at * <;> subst_vars <;> rfl
  | succ n ih =>
    rintro ⟨x, sel, rst, playing, st, tr, k, cfg, ⟨dreq, rest, rx, c⟩, inbox, hang⟩ h
    have ih := ih (poll ⟨x, sel, rst, playing, st, tr, k, cfg, ⟨dreq, rest, rx, c⟩, inbox, hang⟩).2
    obtain ⟨tl, rfl⟩ : ∃ tl, dreq = false :: tl := by
      rcases h with h | ⟨h, -, -⟩ <;> exact ⟨_, by simpa [List.replicate_succ] using h⟩
    have := ih (by simpa [poll, List.replicate_succ, Env.dropSample, Env.ReadyAfter] using h)
    simpa [waitLoop, poll, Env.sample, Env.dropSample, emit, State.log, waitEvents, List.replicate_succ,
      Env.withDreq] using this

/-- A ready-wait whose first `n` samples are false ends after one sample more. -/
theorem waitReady_readyAfter {s : State} {n : Nat} {ds : List Bool} (h : s.env.ReadyAfter n ds) :
    waitReady s = .done () ({ s with env := s.env.withDreq ds }.log (waitEvents n)) :=
  waitLoop_readyAfter n ds s h

theorem waitLoop_neverReady (ds : List Bool) :
    ∀ s : State, s.env.dreq = ds → s.env.NeverReady →
      waitLoop ds s = .hung .readyWait
        ({ s with env := s.env.withDreq [] }.log (List.replicate (ds.length + 1) (.poll false))) := by
  induction ds with
  | nil =>
    rintro ⟨x, sel, rst, playing, st, tr, k, cfg, ⟨dreq, rest, rx, c⟩, inbox, hang⟩ h ⟨-, h'⟩
    simp at h h'; subst h h'; rfl
  | cons b bs ih =>
    rintro ⟨x, sel, rst, playing, st, tr, k, cfg, ⟨dreq, rest, rx, c⟩, inbox, hang⟩ h h'
    simp at h; subst h
    obtain ⟨h', h''⟩ := h'
    simp at h' h''
    obtain ⟨rfl, h'⟩ := h'
    have := ih (poll ⟨x, sel, rst, playing, st, tr, k, cfg, ⟨false :: bs, rest, rx, c⟩, inbox, hang⟩).2 rfl
      ⟨by simpa [poll, Env.dropSample] using h', h''⟩
    simpa [waitLoop, poll, Env.sample, Env.dropSample, emit, State.log, Env.withDreq, List.replicate_succ]
      using this

/-- A ready-wait hangs where DREQ is never sampled true (R20). -/
theorem waitReady_neverReady {s : State} (h : s.env.NeverReady) :
    waitReady s = .hung .readyWait
      ({ s with env := s.env.withDreq [] }.log (List.replicate (s.env.dreq.length + 1) (.poll false))) :=
  waitLoop_neverReady _ s rfl h

/-! ## The poll loop of a hard reset (R213) -/

theorem resetLoop_readyAfter (n : Nat) (ds : List Bool) :
    ∀ s : State, s.env.ReadyAfter n ds →
      resetLoop s.env.dreq s =
        .done () ({ s with env := s.env.withDreq ds }.log (pollRounds n ++ [Event.poll true])) := by
  induction n with
  | zero =>
    rintro ⟨x, sel, rst, playing, st, tr, k, cfg, ⟨dreq, rest, rx, c⟩, inbox, hang⟩
      (h | ⟨h, h', h''⟩) <;> simp at * <;> subst_vars <;> rfl
  | succ n ih =>
    rintro ⟨x, sel, rst, playing, st, tr, k, cfg, ⟨dreq, rest, rx, c⟩, inbox, hang⟩ h
    obtain ⟨tl, rfl⟩ : ∃ tl, dreq = false :: tl := by
      rcases h with h | ⟨h, -, -⟩ <;> exact ⟨_, by simpa [List.replicate_succ] using h⟩
    have := ih (delay 3 (poll ⟨x, sel, rst, playing, st, tr, k, cfg, ⟨false :: tl, rest, rx, c⟩, inbox, hang⟩).2)
      (by simpa [poll, List.replicate_succ, Env.dropSample, Env.ReadyAfter] using h)
    simpa [resetLoop, poll, Env.sample, Env.dropSample, emit, delay, State.log, pollRounds, List.replicate_succ,
      Env.withDreq, Config.pollUs] using this

theorem resetLoop_neverReady (ds : List Bool) :
    ∀ s : State, s.env.dreq = ds → s.env.NeverReady →
      resetLoop ds s = .hung .resetPoll
        ({ s with env := s.env.withDreq [] }.log (pollRounds ds.length ++ [Event.poll false])) := by
  induction ds with
  | nil =>
    rintro ⟨x, sel, rst, playing, st, tr, k, cfg, ⟨dreq, rest, rx, c⟩, inbox, hang⟩ h ⟨-, h'⟩
    simp at h h'; subst h h'; rfl
  | cons b bs ih =>
    rintro ⟨x, sel, rst, playing, st, tr, k, cfg, ⟨dreq, rest, rx, c⟩, inbox, hang⟩ h h'
    simp at h; subst h
    obtain ⟨h', h''⟩ := h'
    simp at h' h''
    obtain ⟨rfl, h'⟩ := h'
    have := ih
      (delay 3 (poll ⟨x, sel, rst, playing, st, tr, k, cfg, ⟨false :: bs, rest, rx, c⟩, inbox, hang⟩).2) rfl
      ⟨by simpa [poll, Env.dropSample] using h', h''⟩
    simpa [resetLoop, poll, Env.sample, Env.dropSample, emit, delay, State.log, pollRounds, List.replicate_succ,
      Env.withDreq, Config.pollUs] using this

/-- The events of the pulse a hard reset starts with (R210). -/
def resetPulse (c : Cfg) : List Event := [.pin .xreset .low, .delay c.hardResetLowUs, .pin .xreset .high]

/-- A hard reset that is sampled ready changes the reset line and the samples, and nothing else (R212). -/
theorem hardReset_readyAfter {s : State} {n : Nat} {ds : List Bool} (h : s.env.ReadyAfter n ds) :
    hardReset s = .done () ({ s with rst := .high, env := s.env.withDreq ds }.log
      (resetPulse s.cfg ++ pollRounds n ++ [Event.poll true])) := by
  have := resetLoop_readyAfter n ds
    (driveReset .high (delay s.cfg.hardResetLowUs (driveReset .low s))) (by simpa using h)
  simpa [hardReset, driveReset, delay, emit, State.log, resetPulse] using this

/-- A hard reset hangs where DREQ is never sampled true, with the reset line high (R213). -/
theorem hardReset_neverReady {s : State} (h : s.env.NeverReady) :
    hardReset s = .hung .resetPoll ({ s with rst := .high, env := s.env.withDreq [] }.log
      (resetPulse s.cfg ++ pollRounds s.env.dreq.length ++ [Event.poll false])) := by
  have := resetLoop_neverReady s.env.dreq
    (driveReset .high (delay s.cfg.hardResetLowUs (driveReset .low s))) rfl (by simpa using h)
  simpa [hardReset, driveReset, delay, emit, State.log, resetPulse] using this

/-! ## Arbitration (R140, R141) -/

/-- A deassertion always succeeds. -/
theorem selectCmd_false (s : State) :
    selectCmd false s = (true, { s with sel := ⟨false, s.sel.data⟩ }.log [.pin .xcs .high]) := rfl

theorem selectCmd_true_free {s : State} (h : s.sel.data = false) :
    selectCmd true s = (true, { s with sel := ⟨true, false⟩ }.log [.pin .xcs .low]) := by
  simp [selectCmd, h, emit, State.log, levelOf]

theorem selectCmd_true_conflict {s : State} (h : s.sel.data = true) :
    selectCmd true s = (false, s.log [.diag .arbitrationConflict .xcs]) := by
  simp [selectCmd, h, emit, State.log]

/-- A deassertion always succeeds. -/
theorem selectData_false (s : State) :
    selectData false s = (true, { s with sel := ⟨s.sel.cmd, false⟩ }.log [.pin .xdcs .high]) := rfl

theorem selectData_true_free {s : State} (h : s.sel.cmd = false) :
    selectData true s = (true, { s with sel := ⟨false, true⟩ }.log [.pin .xdcs .low]) := by
  simp [selectData, h, emit, State.log, levelOf]

theorem selectData_true_conflict {s : State} (h : s.sel.cmd = true) :
    selectData true s = (false, s.log [.diag .arbitrationConflict .xdcs]) := by
  simp [selectData, h, emit, State.log]

/-! ## Register frames (R160, R167) -/

theorem regAddr_eq (r : Reg) : regAddr r = BitVec.ofNat 8 r.index.val := by cases r <;> rfl

theorem hiByte_eq (v : Word) : hiByte v = BitVec.ofNat 8 (v.toNat / 256) := by
  apply BitVec.eq_of_toNat_eq; simp [hiByte, Nat.shiftRight_eq_div_pow]

theorem loByte_eq (v : Word) : loByte v = BitVec.ofNat 8 v.toNat := by
  apply BitVec.eq_of_toNat_eq; simp [loByte]

theorem toNat_append_bytes (hi lo : Byte) : (hi ++ lo : Word).toNat = 256 * hi.toNat + lo.toNat := by
  rw [BitVec.toNat_append, ← Nat.shiftLeft_add_eq_or_of_lt lo.isLt, Nat.shiftLeft_eq]; omega

theorem loByte_append (hi lo : Byte) : loByte (hi ++ lo) = lo := by
  apply BitVec.eq_of_toNat_eq; rw [loByte_eq, toNat_append_bytes]; simp; omega

/-- The frame of a register read, once the wait is over and the line is free. -/
theorem readReg_free {s : State} {r : Reg} {n : Nat} {ds : List Bool} (h : s.env.ReadyAfter n ds)
    (hd : s.sel.data = false) :
    readReg r s = .done .ok (({ s with
        sel := ⟨false, false⟩, env := (s.env.withDreq ds).dropRx 4 }.setReg r (s.env.rxAt 2 ++ s.env.rxAt 3)).log
      (waitEvents n ++ readFrame s.cfg s.env.rxAt r)) := by
  simp [readReg, waitReady_readyAfter h, selectCmd, hd, send, xfer, emit, State.log, State.setReg, readFrame,
    levelOf, regAddr_eq]

/-- A register read refused by an active data-select: nothing is exchanged. -/
theorem readReg_conflict {s : State} {r : Reg} {n : Nat} {ds : List Bool} (h : s.env.ReadyAfter n ds)
    (hd : s.sel.data = true) :
    readReg r s = .done .failArbitration ({ s with env := s.env.withDreq ds }.log
      (waitEvents n ++ [Event.diag .arbitrationConflict .xcs])) := by
  simp [readReg, waitReady_readyAfter h, selectCmd, hd, emit, State.log]

theorem readReg_neverReady {s : State} {r : Reg} (h : s.env.NeverReady) :
    readReg r s = .hung .readyWait
      ({ s with env := s.env.withDreq [] }.log (List.replicate (s.env.dreq.length + 1) (.poll false))) := by
  simp [readReg, waitReady_neverReady h]

theorem commitReg_notWritable {s : State} {r : Reg} (h : writable s.cfg r = false) :
    commitReg r s = (.failNotWritable, s) := by simp [commitReg, h]

theorem commitReg_conflict {s : State} {r : Reg} (h : writable s.cfg r = true) (hd : s.sel.data = true) :
    commitReg r s = (.failArbitration, s.log [.diag .arbitrationConflict .xcs]) := by
  simp [commitReg, h, selectCmd, hd, emit, State.log]

theorem commitReg_free {s : State} {r : Reg} (h : writable s.cfg r = true) (hd : s.sel.data = false) :
    commitReg r s = (.ok, { s with sel := ⟨false, false⟩, env := s.env.dropRx 4 }.log
      (writeFrame s.cfg s.env.rxAt r (s.reg r) (settleTime s r))) := by
  simp [commitReg, h, selectCmd, hd, send, xfer, emit, State.log, writeFrame, delay, levelOf, regAddr_eq,
    hiByte_eq, loByte_eq, State.reg, settleTime]

end Sys2Proof.Machine
end

