-- ==== Sys2Proof/Laws/Streaming.lean ====
section
/-! SUPPORT. The laws of the data frames, of padding and of the samples a wait uses up. -/

namespace Sys2Proof.Machine

/-! ## Grants -/

theorem Env.grants_of_rest {e : Env} (h : e.dreqRest = true) (m : Nat) : e.Grants m := .inl h

theorem Env.neverReady_iff (e : Env) : e.NeverReady ↔ ¬ e.Grants 1 := by
  simp only [Env.NeverReady, Env.Grants, not_or, Bool.not_eq_true, Nat.not_le, Nat.lt_one_iff]
  constructor
  · rintro ⟨h, h'⟩
    exact ⟨h', List.count_eq_zero.2 fun hm => by simpa using h _ hm⟩
  · rintro ⟨h, h'⟩
    refine ⟨fun b hb => ?_, h⟩
    cases b with
    | false => rfl
    | true => exact absurd hb (List.count_eq_zero.1 h')

@[simp] theorem Env.grants_dropRx (e : Env) (n m : Nat) : (e.dropRx n).Grants m ↔ e.Grants m := Iff.rfl

/-- A wait uses up one of the true samples. -/
theorem Env.ReadyAfter.grants {e : Env} {n : Nat} {ds : List Bool} (h : e.ReadyAfter n ds) (m : Nat) :
    e.Grants (m + 1) ↔ (e.withDreq ds).Grants m := by
  rcases h with h | ⟨h, h', rfl⟩
  · simp [Env.Grants, h, List.count_replicate]
  · simp [Env.Grants, h']

theorem Env.ReadyAfter.not_never {e : Env} {n : Nat} {ds : List Bool} (h : e.ReadyAfter n ds) : ¬ e.NeverReady := by
  rw [Env.neverReady_iff, not_not]
  exact (h.grants 0).2 (by simp [Env.Grants])

theorem Env.Grants.mono {e : Env} {m n : Nat} (h : e.Grants m) (hn : n ≤ m) : e.Grants n :=
  h.imp id hn.trans

/-- Granted one true sample, a wait ends. -/
theorem Env.Grants.ready {e : Env} {m : Nat} (h : e.Grants (m + 1)) :
    ∃ n ds, e.ReadyAfter n ds ∧ (e.withDreq ds).Grants m := by
  rcases e.ready_or_never with ⟨n, ds, hr⟩ | hn
  · exact ⟨n, ds, hr, (hr.grants m).1 h⟩
  · exact absurd (h.mono (by omega)) ((Env.neverReady_iff e).1 hn)

/-! ## What a list of events says the block has done -/

/-- The events without false samples and received bytes. -/
def sentOf (es : List Event) : List Event := es.filterMap Event.sent

@[simp] theorem sentOf_nil : sentOf [] = [] := rfl
@[simp] theorem sentOf_append (a b : List Event) : sentOf (a ++ b) = sentOf a ++ sentOf b := by simp [sentOf]
@[simp] theorem sentOf_xfer (b c : Byte) (es : List Event) : sentOf (.xfer b c :: es) = .xfer b 0 :: sentOf es := rfl
@[simp] theorem sentOf_pin (p : Pin) (l : Level) (es : List Event) : sentOf (.pin p l :: es) = .pin p l :: sentOf es := rfl
@[simp] theorem sentOf_delay (u : Nat) (es : List Event) : sentOf (.delay u :: es) = .delay u :: sentOf es := rfl
@[simp] theorem sentOf_play (v : Bool) (es : List Event) : sentOf (.play v :: es) = .play v :: sentOf es := rfl
@[simp] theorem sentOf_diag (d : DiagKind) (p : Pin) (es : List Event) : sentOf (.diag d p :: es) = .diag d p :: sentOf es := rfl
@[simp] theorem sentOf_poll_true (es : List Event) : sentOf (.poll true :: es) = .poll true :: sentOf es := rfl
@[simp] theorem sentOf_poll_false (es : List Event) : sentOf (.poll false :: es) = sentOf es := rfl
@[simp] theorem sentOf_resp (c : Byte) (v : Count) (d : List Byte) (es : List Event) :
    sentOf (.resp c v d :: es) = .resp c v d :: sentOf es := rfl

@[simp] theorem sentOf_waitEvents (n : Nat) : sentOf (waitEvents n) = [.poll true] := by
  induction n with
  | zero => rfl
  | succ n ih => simpa [waitEvents, List.replicate_succ] using ih

@[simp] theorem sentOf_writeFrame (c : Cfg) (rx : Nat → Byte) (r : Reg) (v : Word) (t : Nat) :
    sentOf (writeFrame c rx r v t) = writeFrame c noRx r v t := rfl

@[simp] theorem sentOf_readFrame (c : Cfg) (rx : Nat → Byte) (r : Reg) :
    sentOf (readFrame c rx r) = readFrame c noRx r := rfl

theorem sent_log (s : State) (es : List Event) : (s.log es).sent = s.sent ++ sentOf es := by
  simp [State.sent, sentOf]

theorem sent_replied (s : State) (c : Byte) (v : Count) (d : List Byte) (es : List Event) :
    (s.replied c v d es).sent = s.sent ++ sentOf es ++ [.resp c v d] := by
  simp [State.sent, sentOf, Event.sent]

theorem xfer_eq (tx : Byte) (s : State) : xfer tx s = (s.env.rxAt 0, send tx s) := rfl

/-! ## The payload of a data frame -/

/-- The payload from transfer index `i` on. -/
def payloadFrom (i : Nat) (p : List Byte) : List Event :=
  (p.zipIdx i).flatMap fun e =>
    (if e.2 ≠ 0 ∧ e.2 % 32 = 0 then [Event.pin .xdcs .high, .pin .xdcs .low, .poll true] else []) ++ [.xfer e.1 0]

theorem payloadFrom_cons (i : Nat) (b : Byte) (p : List Byte) :
    payloadFrom i (b :: p) =
      (if i ≠ 0 ∧ i % 32 = 0 then [Event.pin .xdcs .high, .pin .xdcs .low, .poll true] else []) ++
        .xfer b 0 :: payloadFrom (i + 1) p := by
  simp [payloadFrom, List.zipIdx_cons]

/-- The resyncs among the transfer indexes `i` to `i + n - 1`. -/
def resyncs (i n : Nat) : Nat := (List.range' i n).countP fun j => decide (j ≠ 0 ∧ j % 32 = 0)

theorem resyncs_succ (i n : Nat) :
    resyncs i (n + 1) = (if i ≠ 0 ∧ i % 32 = 0 then 1 else 0) + resyncs (i + 1) n := by
  simp only [resyncs, List.range'_succ, List.countP_cons]
  split <;> simp_all
  omega

theorem resyncs_one (n : Nat) : resyncs 1 n = n / 32 := by
  suffices ∀ m, resyncs (1 + m) n = (m + n) / 32 - m / 32 by simpa using this 0
  induction n with
  | zero => intro m; simp [resyncs]
  | succ n ih =>
    intro m
    rw [resyncs_succ, show 1 + m + 1 = 1 + (m + 1) by omega, ih (m + 1)]
    split <;> omega

/-- R243: a payload of `n` bytes has `floor((n - 1) / 32)` resyncs. -/
theorem resyncs_zero (n : Nat) : resyncs 0 n = (n - 1) / 32 := by
  cases n with
  | zero => rfl
  | succ n => rw [resyncs_succ]; simp [resyncs_one]

/-- A resync inside a frame (R241): the lines end as they were. -/
theorem resync_readyAfter {s : State} {n : Nat} {ds : List Bool} (hs : s.sel = ⟨false, true⟩)
    (h : s.env.ReadyAfter n ds) :
    resync s = .done () ({ s with env := s.env.withDreq ds }.log
      ([Event.pin .xdcs .high, Event.pin .xdcs .low] ++ waitEvents n)) := by
  obtain ⟨x, sel, rst, playing, st, tr, k, cfg, env, inbox, hang⟩ := s
  simp only at hs; subst hs
  have := waitReady_readyAfter (s := ⟨x, ⟨false, true⟩, rst, playing, st,
    .pin .xdcs .low :: .pin .xdcs .high :: tr, k, cfg, env, inbox, hang⟩) h
  simpa [resync, selectData, emit, levelOf, State.log] using this

theorem resync_neverReady {s : State} (hs : s.sel = ⟨false, true⟩) (h : s.env.NeverReady) :
    resync s = .hung .readyWait ({ s with env := s.env.withDreq [] }.log
      ([Event.pin .xdcs .high, Event.pin .xdcs .low] ++ List.replicate (s.env.dreq.length + 1) (Event.poll false))) := by
  obtain ⟨x, sel, rst, playing, st, tr, k, cfg, env, inbox, hang⟩ := s
  simp only at hs; subst hs
  have := waitReady_neverReady (s := ⟨x, ⟨false, true⟩, rst, playing, st,
    .pin .xdcs .low :: .pin .xdcs .high :: tr, k, cfg, env, inbox, hang⟩) h
  simpa [resync, selectData, emit, levelOf, State.log] using this

theorem flowControl_spec (i : Nat) {s : State} (hs : s.sel = ⟨false, true⟩) {m : Nat}
    (h : s.env.Grants (m + if i ≠ 0 ∧ i % 32 = 0 then 1 else 0)) :
    ∃ es ds, flowControl i s = .done () ({ s with env := s.env.withDreq ds }.log es) ∧
      sentOf es = (if i ≠ 0 ∧ i % 32 = 0 then [.pin .xdcs .high, .pin .xdcs .low, .poll true] else []) ∧
      (s.env.withDreq ds).Grants m := by
  by_cases hi : i ≠ 0 ∧ i % 32 = 0
  · rw [if_pos hi] at h ⊢
    obtain ⟨n, ds, hr, hg⟩ := h.ready
    exact ⟨_, ds, by rw [flowControl, if_pos (by simpa [Config.chunk] using hi), resync_readyAfter hs hr],
      by simp, hg⟩
  · rw [if_neg hi] at h ⊢
    exact ⟨[], s.env.dreq, by rw [flowControl, if_neg (by simpa [Config.chunk] using hi)]; rfl, rfl, h⟩

/-- The payload of a data write frame, granted a true sample for each resync. -/
theorem writeBytes_spec (p : List Byte) : ∀ (i m : Nat) (s : State), s.sel = ⟨false, true⟩ →
    s.env.Grants (m + resyncs i p.length) →
    ∃ es ds, writeBytes i p s = .done () ({ s with env := (s.env.withDreq ds).dropRx p.length }.log es) ∧
      sentOf es = payloadFrom i p ∧ (s.env.withDreq ds).Grants m := by
  induction p with
  | nil => intro i m s hs h; exact ⟨[], s.env.dreq, by simp [writeBytes], rfl, by simpa [resyncs] using h⟩
  | cons b p ih =>
    intro i m s hs h
    rw [List.length_cons, resyncs_succ, ← Nat.add_assoc, Nat.add_right_comm] at h
    obtain ⟨es, ds, h1, h2, h3⟩ := flowControl_spec i hs h
    obtain ⟨es', ds', h1', h2', h3'⟩ := ih (i + 1) m
      (send b ({ s with env := s.env.withDreq ds }.log es)) (by simpa using hs) (by simpa using h3)
    refine ⟨es ++ .xfer b (s.env.rxAt 0) :: es', ds', ?_, ?_, by simpa using h3'⟩
    · simp only [writeBytes, h1, bind_done, h1']
      simp [send, xfer, emit, State.log, Nat.add_comm]
    · simp [payloadFrom_cons, h2, h2']

/-- The payload of a data read frame, granted a true sample for each resync: the bytes received, in order. -/
theorem readBytes_spec (n : Nat) : ∀ (i m : Nat) (d : List Byte) (s : State), s.sel = ⟨false, true⟩ →
    s.env.Grants (m + resyncs i n) →
    ∃ es ds, readBytes n i d s = .done (d ++ (List.range n).map s.env.rxAt)
        ({ s with env := (s.env.withDreq ds).dropRx n }.log es) ∧
      sentOf es = payloadFrom i (List.replicate n s.cfg.txFill) ∧ (s.env.withDreq ds).Grants m := by
  induction n with
  | zero => intro i m d s hs h; exact ⟨[], s.env.dreq, by simp [readBytes], rfl, by simpa [resyncs] using h⟩
  | succ n ih =>
    intro i m d s hs h
    rw [resyncs_succ, ← Nat.add_assoc, Nat.add_right_comm] at h
    obtain ⟨es, ds, h1, h2, h3⟩ := flowControl_spec i hs h
    obtain ⟨es', ds', h1', h2', h3'⟩ := ih (i + 1) m (d ++ [s.env.rxAt 0])
      (send s.cfg.txFill ({ s with env := s.env.withDreq ds }.log es)) (by simpa using hs) (by simpa using h3)
    refine ⟨es ++ .xfer s.cfg.txFill (s.env.rxAt 0) :: es', ds', ?_, ?_, by simpa using h3'⟩
    · simp only [readBytes, h1, bind_done, xfer_eq, log_cfg, log_env, withDreq_rxAt, h1']
      simp [send, xfer, emit, State.log, Nat.add_comm, List.range_succ_eq_map, Function.comp_def]
    · simpa [List.replicate_succ, payloadFrom_cons, h2] using h2'

/-! ## Data frames (R240, R244) -/

theorem hdrAddr_eq (c : Cfg) (a : Addr) :
    hdrAddr c a = (c.hdrAddr.lookup a).getD (BitVec.ofNat 8 a.toNat) := by rw [hdrAddr, loByte_eq]

theorem openFrame_invalid {s : State} {a : Addr} {m n : Nat} {ds : List Bool} (h : s.env.ReadyAfter n ds)
    (ha : validAddr s.cfg a = false) :
    openFrame a m s = .done .failInvalidAddress ({ s with env := s.env.withDreq ds }.log (waitEvents n)) := by
  simp [openFrame, waitReady_readyAfter h, ha]

theorem openFrame_zero {s : State} {a : Addr} {n : Nat} {ds : List Bool} (h : s.env.ReadyAfter n ds)
    (ha : validAddr s.cfg a = true) :
    openFrame a 0 s = .done .failZeroSize ({ s with env := s.env.withDreq ds }.log (waitEvents n)) := by
  simp [openFrame, waitReady_readyAfter h, ha]

theorem openFrame_conflict {s : State} {a : Addr} {m n : Nat} {ds : List Bool} (h : s.env.ReadyAfter n ds)
    (ha : validAddr s.cfg a = true) (hm : m ≠ 0) (hc : s.sel.cmd = true) :
    openFrame a m s = .done .failArbitration ({ s with env := s.env.withDreq ds }.log
      (waitEvents n ++ [Event.diag .arbitrationConflict .xdcs])) := by
  simp [openFrame, waitReady_readyAfter h, ha, hm, selectData, hc, emit, State.log]

theorem openFrame_free {s : State} {a : Addr} {m n : Nat} {ds : List Bool} (h : s.env.ReadyAfter n ds)
    (ha : validAddr s.cfg a = true) (hm : m ≠ 0) (hc : s.sel.cmd = false) :
    openFrame a m s = .done .ok ({ s with sel := ⟨false, true⟩, env := s.env.withDreq ds }.log
      (waitEvents n ++ [Event.pin .xdcs .low])) := by
  simp [openFrame, waitReady_readyAfter h, ha, hm, selectData, hc, emit, State.log, levelOf]

theorem openFrame_neverReady {s : State} {a : Addr} {m : Nat} (h : s.env.NeverReady) :
    openFrame a m s = .hung .readyWait
      ({ s with env := s.env.withDreq [] }.log (List.replicate (s.env.dreq.length + 1) (.poll false))) := by
  simp [openFrame, waitReady_neverReady h]

/-- A data write frame that runs (R240): its events, the exchanges and the samples it uses, and nothing else. -/
theorem transferOut_spec {s : State} {a : Addr} {p : List Byte} {m : Nat} (ha : validAddr s.cfg a = true)
    (hp : p ≠ []) (hc : s.sel.cmd = false) (h : s.env.Grants (m + 1 + (p.length - 1) / 32)) :
    ∃ es ds, transferOut a p s = .done .ok ({ s with
        sel := ⟨false, false⟩, env := (s.env.withDreq ds).dropRx (p.length + 2) }.log es) ∧
      sentOf es = dataFrame s.cfg s.cfg.opDataWrite a p ∧ (s.env.withDreq ds).Grants m := by
  rw [Nat.add_right_comm, ← resyncs_zero] at h
  obtain ⟨n, ds, hr, hg⟩ := h.ready
  obtain ⟨es, ds', h1, h2, h3⟩ := writeBytes_spec p 0 m
    (send (hdrAddr s.cfg a) (send s.cfg.opDataWrite ({ s with
      sel := ⟨false, true⟩, env := s.env.withDreq ds }.log (waitEvents n ++ [Event.pin .xdcs .low]))))
    rfl (by simpa using hg)
  refine ⟨waitEvents n ++ [Event.pin .xdcs .low] ++ [.xfer s.cfg.opDataWrite (s.env.rxAt 0),
    .xfer (hdrAddr s.cfg a) (s.env.rxAt 1)] ++ es ++ [.pin .xdcs .high], ds', ?_, ?_, by simpa using h3⟩
  · simp only [transferOut, openFrame_free (m := p.length) hr ha (by simpa using hp) hc, bind_done, log_cfg, send_cfg, h1]
    simp [selectData_false, send, xfer, emit, State.log, Nat.add_comm]
  · simp [h2, hdrAddr_eq, dataFrame, payloadEvents, payloadFrom]

/-- A data read frame that runs (R244). -/
theorem transferIn_spec {s : State} {a : Addr} {n m : Nat} (ha : validAddr s.cfg a = true)
    (hn : n ≠ 0) (hc : s.sel.cmd = false) (h : s.env.Grants (m + 1 + (n - 1) / 32)) :
    ∃ es ds, transferIn a n s = .done (.ok, (List.range n).map fun j => s.env.rxAt (2 + j)) ({ s with
        sel := ⟨false, false⟩, env := (s.env.withDreq ds).dropRx (n + 2) }.log es) ∧
      sentOf es = dataFrame s.cfg s.cfg.opDataRead a (List.replicate n s.cfg.txFill) ∧
      (s.env.withDreq ds).Grants m := by
  rw [Nat.add_right_comm, ← resyncs_zero] at h
  obtain ⟨k, ds, hr, hg⟩ := h.ready
  obtain ⟨es, ds', h1, h2, h3⟩ := readBytes_spec n 0 m []
    (send (hdrAddr s.cfg a) (send s.cfg.opDataRead ({ s with
      sel := ⟨false, true⟩, env := s.env.withDreq ds }.log (waitEvents k ++ [Event.pin .xdcs .low]))))
    rfl (by simpa using hg)
  refine ⟨waitEvents k ++ [Event.pin .xdcs .low] ++ [.xfer s.cfg.opDataRead (s.env.rxAt 0),
    .xfer (hdrAddr s.cfg a) (s.env.rxAt 1)] ++ es ++ [.pin .xdcs .high], ds', ?_, ?_, by simpa using h3⟩
  · simp only [transferIn, openFrame_free hr ha hn hc, bind_done, log_cfg, send_cfg, h1]
    simp [selectData_false, send, xfer, emit, State.log, Nat.add_comm]
  · simp at h2
    simp [h2, hdrAddr_eq, dataFrame, payloadEvents, payloadFrom]

/-! ## Padding and playback -/

/-- A fill fetch that runs (R255). -/
theorem fetchFill_spec {s : State} {m : Nat} (hw : writable s.cfg .wramAddr = true) (hd : s.sel.data = false)
    (h : s.env.Grants (m + 1)) :
    ∃ es ds, fetchFill s = .done (.ok, s.env.rxAt 7) ((({ s with
        sel := ⟨false, false⟩, env := (s.env.withDreq ds).dropRx 8 }.setReg .wramAddr s.cfg.fillAddr).setReg
          .wramData (s.env.rxAt 6 ++ s.env.rxAt 7)).log es) ∧
      sentOf es = fetchFrames s.cfg (s.reg .clockConfig) ∧ (s.env.withDreq ds).Grants m := by
  obtain ⟨n, ds, hr, hg⟩ := h.ready
  let u : State := { s.setReg .wramAddr s.cfg.fillAddr with sel := ⟨false, false⟩, env := s.env.dropRx 4 }.log
    (writeFrame s.cfg s.env.rxAt .wramAddr s.cfg.fillAddr (settleTime s .wramAddr))
  have h1 : commitReg .wramAddr (s.setReg .wramAddr s.cfg.fillAddr) = (.ok, u) := by
    rw [commitReg_free (s := s.setReg .wramAddr s.cfg.fillAddr) hw hd, reg_setReg_same]
    simp [u, settleTime, reg_setReg]
  have h2 := readReg_free (r := .wramData) (s := u) (n := n) (ds := ds) hr rfl
  refine ⟨writeFrame s.cfg s.env.rxAt .wramAddr s.cfg.fillAddr (settleTime s .wramAddr) ++
    (waitEvents n ++ readFrame s.cfg (s.env.dropRx 4).rxAt .wramData), ds, ?_, ?_, hg⟩
  · rw [fetchFill, h1]
    simp only [h2, bind_done]
    simp [u, State.log, State.setReg, State.reg, loByte_append]
  · simp [fetchFrames, settleTime]

theorem chunkAddr_eq (a : Addr) (k : Nat) : chunkAddr a k = a + BitVec.ofNat 16 (32 * k) := by
  apply BitVec.eq_of_toNat_eq; simp [chunkAddr, Config.chunk]

theorem ceilDiv_chunk (n : Nat) : ceilDiv n Config.chunk = (n + 31) / 32 := rfl

theorem paddingFrames_succ (c : Cfg) (a : Addr) (n : Nat) (f : Byte) (j : Nat) :
    paddingFrames c a n f (j + 1) = paddingFrames c a n f j ++
      dataFrame c c.opDataWrite (a + BitVec.ofNat 16 (32 * j)) (List.replicate (min 32 (n - 32 * j)) f) := by
  simp [paddingFrames, List.range_succ]

/-- `l` chunks of a padding that run, from chunk `k` on. -/
theorem padLoop_prefix {a : Addr} {n : Nat} {f : Byte} (l : Nat) : ∀ (k m l' : Nat) (s : State),
    s.sel.cmd = false → (∀ j, k ≤ j → j < k + l → 32 * j < n ∧ validAddr s.cfg (a + BitVec.ofNat 16 (32 * j)) = true) →
    s.env.Grants (m + l) →
    ∃ es ds c sd, padLoop a n f (l + l') k s =
        padLoop a n f l' (k + l) ({ s with sel := sd, env := (s.env.withDreq ds).dropRx c }.log es) ∧
      paddingFrames s.cfg a n f k ++ sentOf es = paddingFrames s.cfg a n f (k + l) ∧
      (s.env.withDreq ds).Grants m ∧ (sd = if l = 0 then s.sel else ⟨false, false⟩) := by
  induction l with
  | zero => intro k m l' s hc ha h; exact ⟨[], s.env.dreq, 0, s.sel, by simp, by simp, h, by simp⟩
  | succ l ih =>
    intro k m l' s hc ha h
    obtain ⟨hn, hv⟩ := ha k (le_refl k) (by omega)
    have hlen : (List.replicate (chunkSize n k) f).length = min 32 (n - 32 * k) := by
      simp [chunkSize, Config.chunk]
    obtain ⟨es, ds, h1, h2, h3⟩ := transferOut_spec (s := s) (a := chunkAddr a k)
      (p := List.replicate (chunkSize n k) f) (m := m + l) (by rwa [chunkAddr_eq])
      (by rw [← List.length_pos_iff_ne_nil, hlen]; omega) hc
      (by rw [hlen, show (min 32 (n - 32 * k) - 1) / 32 = 0 by omega]; exact h)
    rw [hlen] at h1
    obtain ⟨es', ds', c, sd, h1', h2', h3', h4'⟩ := ih (k + 1) m l' ({ s with
        sel := ⟨false, false⟩, env := (s.env.withDreq ds).dropRx (min 32 (n - 32 * k) + 2) }.log es) rfl
      (fun j hj hj' => ha j (by omega) (by omega)) (by simpa using h3)
    refine ⟨es ++ es', ds', min 32 (n - 32 * k) + 2 + c, ⟨false, false⟩, ?_, ?_, by simpa using h3', by simp⟩
    · rw [show l + 1 + l' = (l + l') + 1 by omega, padLoop, h1]
      simp only [bind_done, h1']
      rw [show k + 1 + l = k + (l + 1) by omega, h4']
      simp [State.log]
    · rw [show k + (l + 1) = k + 1 + l by omega]
      simp only [log_cfg] at h2'
      rw [← h2', paddingFrames_succ, sentOf_append, h2, chunkAddr_eq]
      simp [chunkSize, Config.chunk]

/-- A padding that runs (R250, R255). -/
theorem sendPadding_spec {s : State} {a : Addr} {n m : Nat} (hw : writable s.cfg .wramAddr = true)
    (hd : s.sel.data = false)
    (hv : ∀ k, 32 * k < n → validAddr s.cfg (a + BitVec.ofNat 16 (32 * k)) = true)
    (h : s.env.Grants (m + 1 + (n + 31) / 32)) :
    ∃ es ds c, sendPadding a n s = .done .ok ((({ s with
        sel := ⟨false, false⟩, env := (s.env.withDreq ds).dropRx c }.setReg .wramAddr s.cfg.fillAddr).setReg
          .wramData (s.env.rxAt 6 ++ s.env.rxAt 7)).log es) ∧
      sentOf es = fetchFrames s.cfg (s.reg .clockConfig) ++
        paddingFrames s.cfg a n (s.env.rxAt 7) ((n + 31) / 32) ∧ (s.env.withDreq ds).Grants m := by
  obtain ⟨es, ds, h1, h2, h3⟩ := fetchFill_spec (m := m + (n + 31) / 32) hw hd (by rwa [Nat.add_right_comm] at h)
  generalize hu : ((({ s with
        sel := ⟨false, false⟩, env := (s.env.withDreq ds).dropRx 8 }.setReg .wramAddr s.cfg.fillAddr).setReg
          .wramData (s.env.rxAt 6 ++ s.env.rxAt 7)).log es) = u at h1
  obtain ⟨es', ds', c, sd, h1', h2', h3', h4'⟩ := padLoop_prefix (a := a) (n := n) (f := s.env.rxAt 7)
    ((n + 31) / 32) 0 m 0 u (by rw [← hu]; rfl) (fun j _ hj => ⟨by omega, by rw [← hu]; exact hv j (by omega)⟩)
    (by rw [← hu]; simpa using h3)
  have hsd : sd = ⟨false, false⟩ := by
    rw [h4', ← hu]; split <;> rfl
  refine ⟨es ++ es', ds', 8 + c, ?_, ?_, ?_⟩
  · simp only [sendPadding, h1, bind_done, ceilDiv_chunk]
    simp only [Nat.add_zero] at h1'
    rw [h1', padLoop, ← hu, hsd]
    simp [State.log, State.setReg]
  · simp only [Nat.zero_add] at h2'
    rw [← hu] at h2'
    simp only [log_cfg, setReg_cfg] at h2'
    rw [sentOf_append, h2, ← h2']; simp [paddingFrames]
  · rw [← hu] at h3'; simpa using h3'

/-- A playback whose preamble runs: what is left is the body between the two writes of the flag (R126, R260). -/
theorem startPlayback_free {s : State} {p : List Byte} {n : Nat} {ds : List Bool} (h : s.env.ReadyAfter n ds)
    (hc : s.sel.cmd = false) :
    startPlayback p s = (playBody p ({ s with
        sel := ⟨false, false⟩, playing := true, env := (s.env.withDreq ds).dropRx 2 }.log
      (waitEvents n ++ [Event.pin .xdcs .low, .xfer 0x00#8 (s.env.rxAt 0), .xfer 0x00#8 (s.env.rxAt 1),
        .pin .xdcs .high, .play true]))).bind fun st s => .done st (setPlaying false s) := by
  simp [startPlayback, waitReady_readyAfter h, selectData, hc, send, xfer, emit, State.log, setPlaying, levelOf]

end Sys2Proof.Machine
end

