-- ==== Sys2Proof/Laws/Moves.lean ====
section
/-! SUPPORT. What a command can do at all: the primitives it is made of, what each of them keeps, and how every
command ends. -/

namespace Sys2Proof.Machine

/-- What the moves of a command may touch. -/
structure Allowed where
  /-- the mirror entries it may write -/
  regs : List Reg
  /-- it may drive the select lines and exchange bytes -/
  lines : Bool
  /-- it may drive the reset line -/
  reset : Bool
  /-- it may write the playing flag -/
  play : Bool

/-- The state `t` is reached from `s` by primitives of R14 to R17 alone, each among the allowed ones; a byte is
exchanged only while exactly one select line is active. -/
inductive Moves (A : Allowed) (s : State) : State → Prop
  | refl : Moves A s s
  | poll {t : State} : Moves A s t → Moves A s (poll t).2
  | delay {t : State} (us : Nat) : Moves A s t → Moves A s (delay us t)
  | send {t : State} (b : Byte) : A.lines = true → t.sel.cmd ≠ t.sel.data → Moves A s t → Moves A s (send b t)
  | setReg {t : State} (r : Reg) (v : Word) : r ∈ A.regs → Moves A s t → Moves A s (t.setReg r v)
  | cmd {t : State} (b : Bool) : A.lines = true → Moves A s t → Moves A s (selectCmd b t).2
  | data {t : State} (b : Bool) : A.lines = true → Moves A s t → Moves A s (selectData b t).2
  | driveReset {t : State} (l : Level) : A.reset = true → Moves A s t → Moves A s (driveReset l t)
  | setPlaying {t : State} (v : Bool) : A.play = true → Moves A s t → Moves A s (setPlaying v t)

theorem Moves.trans {A : Allowed} {s t u : State} (h : Moves A s t) (h' : Moves A t u) : Moves A s u := by
  induction h' with
  | refl => exact h
  | poll _ ih => exact .poll ih
  | delay us _ ih => exact .delay us ih
  | send b hl hs _ ih => exact .send b hl hs ih
  | setReg r v hr _ ih => exact .setReg r v hr ih
  | cmd b hl _ ih => exact .cmd b hl ih
  | data b hl _ ih => exact .data b hl ih
  | driveReset l hl _ ih => exact .driveReset l hl ih
  | setPlaying v hp _ ih => exact .setPlaying v hp ih

/-! ## What a select request does to each field -/

theorem selectCmd_fields (b : Bool) (s : State) :
    ∃ e, e ≠ [] ∧ (selectCmd b s).2 = ({ s with sel := (selectCmd b s).2.sel }.log e) ∧
      (e = [.diag .arbitrationConflict .xcs] ∧ (selectCmd b s).2.sel = s.sel ∨
        e = [.pin .xcs (levelOf b)] ∧ (selectCmd b s).2.sel = ⟨b, s.sel.data⟩ ∧ ¬ (b = true ∧ s.sel.data = true)) := by
  by_cases h : b && s.sel.data
  · exact ⟨[.diag .arbitrationConflict .xcs], by simp, by simp [selectCmd, h, emit, State.log],
      .inl ⟨rfl, by simp [selectCmd, h]⟩⟩
  · exact ⟨[.pin .xcs (levelOf b)], by simp, by simp [selectCmd, h, emit, State.log],
      .inr ⟨rfl, by simp [selectCmd, h], by simpa using h⟩⟩

theorem selectData_fields (b : Bool) (s : State) :
    ∃ e, e ≠ [] ∧ (selectData b s).2 = ({ s with sel := (selectData b s).2.sel }.log e) ∧
      (e = [.diag .arbitrationConflict .xdcs] ∧ (selectData b s).2.sel = s.sel ∨
        e = [.pin .xdcs (levelOf b)] ∧ (selectData b s).2.sel = ⟨s.sel.cmd, b⟩ ∧ ¬ (b = true ∧ s.sel.cmd = true)) := by
  by_cases h : b && s.sel.cmd
  · exact ⟨[.diag .arbitrationConflict .xdcs], by simp, by simp [selectData, h, emit, State.log],
      .inl ⟨rfl, by simp [selectData, h]⟩⟩
  · exact ⟨[.pin .xdcs (levelOf b)], by simp, by simp [selectData, h, emit, State.log],
      .inr ⟨rfl, by simp [selectData, h], by simpa using h⟩⟩

/-! ## What every move keeps -/

/-- The fields no move touches. -/
theorem Moves.fixed {A : Allowed} {s t : State} (h : Moves A s t) :
    t.st = s.st ∧ t.k = s.k ∧ t.cfg = s.cfg ∧ t.inbox = s.inbox ∧ t.hang = s.hang ∧
      t.env.dreqRest = s.env.dreqRest := by
  induction h with
  | refl => simp
  | poll _ ih => exact ih
  | delay us _ ih => exact ih
  | send b hl hs _ ih => exact ih
  | setReg r v hr _ ih => exact ih
  | cmd b hl _ ih => obtain ⟨e, -, h, -⟩ := selectCmd_fields b ‹_›; rw [h]; exact ih
  | data b hl _ ih => obtain ⟨e, -, h, -⟩ := selectData_fields b ‹_›; rw [h]; exact ih
  | driveReset l hl _ ih => exact ih
  | setPlaying v hp _ ih => exact ih

/-- A mirror entry that may not be written is unchanged (R42). -/
theorem Moves.reg {A : Allowed} {s t : State} (h : Moves A s t) {r : Reg} (hr : r ∉ A.regs) :
    t.reg r = s.reg r := by
  induction h with
  | refl => rfl
  | poll _ ih => exact ih
  | delay us _ ih => exact ih
  | send b hl hs _ ih => exact ih
  | setReg r' v hr' _ ih => rw [reg_setReg_other (by rintro rfl; exact hr hr'), ih]
  | cmd b hl _ ih => obtain ⟨e, -, h, -⟩ := selectCmd_fields b ‹_›; rw [h]; exact ih
  | data b hl _ ih => obtain ⟨e, -, h, -⟩ := selectData_fields b ‹_›; rw [h]; exact ih
  | driveReset l hl _ ih => exact ih
  | setPlaying v hp _ ih => exact ih

/-- The events `es` lead from `s` to `t` as far as the lines that may not be touched tell. -/
def Quiet (A : Allowed) (s t : State) (es : List Event) : Prop :=
  t.trace = s.trace ++ es ∧ es.countP Event.isResp = 0 ∧
    (A.reset = false → t.rst = s.rst ∧ es.countP (Event.isPin .xreset) = 0) ∧
    (A.play = false → t.playing = s.playing ∧ es.countP Event.isPlay = 0) ∧
    (A.lines = false → t.sel = s.sel ∧ es.countP (Event.isPin .xcs) = 0 ∧
      es.countP (Event.isPin .xdcs) = 0 ∧ es.countP Event.isXfer = 0)

theorem Quiet.snoc {A : Allowed} {s t u : State} {es : List Event} (h : Quiet A s t es) (e : Event)
    (ht : u.trace = t.trace ++ [e]) (hr : Event.isResp e = false)
    (h1 : A.reset = false → u.rst = t.rst ∧ Event.isPin .xreset e = false)
    (h2 : A.play = false → u.playing = t.playing ∧ Event.isPlay e = false)
    (h3 : A.lines = false → u.sel = t.sel ∧ Event.isPin .xcs e = false ∧ Event.isPin .xdcs e = false ∧
      Event.isXfer e = false) : Quiet A s u (es ++ [e]) := by
  obtain ⟨q1, q2, q3, q4, q5⟩ := h
  refine ⟨by rw [ht, q1, List.append_assoc], ?_, fun h => ?_, fun h => ?_, fun h => ?_⟩
  · rw [List.countP_append, q2]; simp [hr]
  · rw [List.countP_append, (q3 h).2]; simp [h1 h, q3 h]
  · rw [List.countP_append, (q4 h).2]; simp [h2 h, q4 h]
  · obtain ⟨a, b, c, d⟩ := q5 h
    obtain ⟨a', b', c', d'⟩ := h3 h
    rw [List.countP_append, List.countP_append, List.countP_append, b, c, d]
    simp [a, a', b', c', d']

/-- The events of the moves: what they may be, and what the lines they may not touch do. -/
theorem Moves.events {A : Allowed} {s t : State} (h : Moves A s t) : ∃ es, Quiet A s t es := by
  induction h with
  | refl => exact ⟨[], by simp [Quiet]⟩
  | @poll t _ ih =>
    obtain ⟨es, h⟩ := ih
    exact ⟨_, h.snoc (.poll t.env.sample) (trace_emit ..) rfl (by simp [Machine.poll]) (by simp [Machine.poll])
      (by simp [Machine.poll])⟩
  | delay us _ ih =>
    obtain ⟨es, h⟩ := ih
    exact ⟨_, h.snoc (.delay us) (trace_emit ..) rfl (by simp) (by simp) (by simp)⟩
  | @send t b hl hs _ ih =>
    obtain ⟨es, h⟩ := ih
    exact ⟨_, h.snoc (.xfer b (t.env.rxAt 0)) (trace_emit ..) rfl (by simp) (by simp) (by simp [hl])⟩
  | setReg r' v hr' _ ih => exact ih
  | @cmd t b hl _ ih =>
    obtain ⟨es, h⟩ := ih
    obtain ⟨e, -, hu, ⟨rfl, he⟩ | ⟨rfl, he, -⟩⟩ := selectCmd_fields b t
    · exact ⟨_, h.snoc _ (by rw [hu]; exact trace_log ..) rfl (by rw [hu]; simp) (by rw [hu]; simp) (by simp [hl])⟩
    · exact ⟨_, h.snoc _ (by rw [hu]; exact trace_log ..) rfl (by rw [hu]; simp) (by rw [hu]; simp) (by simp [hl])⟩
  | @data t b hl _ ih =>
    obtain ⟨es, h⟩ := ih
    obtain ⟨e, -, hu, ⟨rfl, he⟩ | ⟨rfl, he, -⟩⟩ := selectData_fields b t
    · exact ⟨_, h.snoc _ (by rw [hu]; exact trace_log ..) rfl (by rw [hu]; simp) (by rw [hu]; simp) (by simp [hl])⟩
    · exact ⟨_, h.snoc _ (by rw [hu]; exact trace_log ..) rfl (by rw [hu]; simp) (by rw [hu]; simp) (by simp [hl])⟩
  | driveReset l hl _ ih =>
    obtain ⟨es, h⟩ := ih
    exact ⟨_, h.snoc (.pin .xreset l) (trace_emit ..) rfl (by simp [hl]) (by simp) (by simp)⟩
  | setPlaying v hp _ ih =>
    obtain ⟨es, h⟩ := ih
    exact ⟨_, h.snoc (.play v) (trace_emit ..) rfl (by simp) (by simp [hp]) (by simp)⟩

/-- The clauses of coherence that hold inside a command too. -/
structure State.Mid (s : State) : Prop where
  selExclusive : ¬ (s.sel.cmd = true ∧ s.sel.data = true)
  xcs : lastPin .xcs s.tr = if s.sel.cmd then .low else .high
  xdcs : lastPin .xdcs s.tr = if s.sel.data then .low else .high
  xreset : lastPin .xreset s.tr = s.rst
  play : lastPlay s.tr = s.playing
  exchanges : s.tr.countP Event.isXfer = s.env.rxCount
  bus : busDiscipline s.tr = true
  response : lastResp s.tr = s.st
  count : s.tr.countP Event.isResp = s.k

theorem Moves.mid {A : Allowed} {s t : State} (h : Moves A s t) (hs : s.Mid) : t.Mid := by
  induction h with
  | refl => exact hs
  | poll _ ih =>
    obtain ⟨h1, h2, h3, h4, h5, h6, h7, h8, h9⟩ := ih
    constructor <;> simp [Machine.poll, Env.dropSample] at * <;> assumption
  | delay us _ ih =>
    obtain ⟨h1, h2, h3, h4, h5, h6, h7, h8, h9⟩ := ih
    constructor <;> simp at * <;> assumption
  | @send t b hl hd _ ih =>
    obtain ⟨h1, h2, h3, h4, h5, h6, h7, h8, h9⟩ := ih
    refine ⟨h1, h2, h3, h4, h5, ?_, ?_, h8, h9⟩
    · rw [send_tr, List.countP_cons_of_pos rfl, h6]; rfl
    · rw [send_tr, busDiscipline_cons, busAllows_xfer, h7, h2, h3]
      revert hd
      cases t.sel.cmd <;> cases t.sel.data <;> decide
  | setReg r v hr _ ih => exact ⟨ih.1, ih.2, ih.3, ih.4, ih.5, ih.6, ih.7, ih.8, ih.9⟩
  | @cmd t b hl _ ih =>
    obtain ⟨h1, h2, h3, h4, h5, h6, h7, h8, h9⟩ := ih
    obtain ⟨e, -, h, ⟨rfl, he⟩ | ⟨rfl, he, hb⟩⟩ := selectCmd_fields b t <;> rw [h, he]
    · constructor <;> simp at * <;> assumption
    · cases b <;> constructor <;> simp_all [levelOf]
  | @data t b hl _ ih =>
    obtain ⟨h1, h2, h3, h4, h5, h6, h7, h8, h9⟩ := ih
    obtain ⟨e, -, h, ⟨rfl, he⟩ | ⟨rfl, he, hb⟩⟩ := selectData_fields b t <;> rw [h, he]
    · constructor <;> simp at * <;> assumption
    · cases b <;> constructor <;> simp_all [levelOf]
  | driveReset l hl _ ih =>
    obtain ⟨h1, h2, h3, h4, h5, h6, h7, h8, h9⟩ := ih
    constructor <;> simp at * <;> assumption
  | setPlaying v hp _ ih =>
    obtain ⟨h1, h2, h3, h4, h5, h6, h7, h8, h9⟩ := ih
    constructor <;> simp at * <;> assumption


/-! ## Procedures that may hang -/

/-- Where a hung command stands: every listed sample is drawn, none is ever true, and the last event is a false
sample (R20). -/
def HungAt (h : Hang) (t : State) : Prop :=
  t.env.dreq = [] ∧ t.env.dreqRest = false ∧ t.tr.head? = some (.poll false) ∧ (h = .resetPoll → t.rst = .high)

/-- Whatever a procedure answers, it got there by allowed moves, and it answers as `Q` says. -/
def Res.Sat {α : Type} (r : Res α) (A : Allowed) (s : State) (Q : α → State → Prop) : Prop :=
  match r with
  | .done a t => Moves A s t ∧ Q a t
  | .hung h t => Moves A s t ∧ HungAt h t

theorem Res.Sat.bind {α β : Type} {r : Res α} {A : Allowed} {s : State} {Q : α → State → Prop}
    {f : α → State → Res β} {Q' : β → State → Prop} (h : r.Sat A s Q)
    (hf : ∀ a t, Q a t → (f a t).Sat A t Q') : (r.bind f).Sat A s Q' := by
  cases r with
  | hung g t => exact h
  | done a t =>
    have := hf a t h.2
    simp only [bind_done]
    cases hr : f a t with
    | done b u => rw [hr] at this; exact ⟨h.1.trans this.1, this.2⟩
    | hung g u => rw [hr] at this; exact ⟨h.1.trans this.1, this.2⟩

theorem Res.Sat.mono {α : Type} {r : Res α} {A : Allowed} {s : State} {Q Q' : α → State → Prop}
    (h : r.Sat A s Q) (hq : ∀ a t, Q a t → Q' a t) : r.Sat A s Q' := by
  cases r with
  | hung g t => exact h
  | done a t => exact ⟨h.1, hq _ _ h.2⟩

theorem Res.Sat.done {α : Type} {A : Allowed} {s t : State} {Q : α → State → Prop} {a : α} (h : Moves A s t)
    (hq : Q a t) : (Res.done a t).Sat A s Q := ⟨h, hq⟩

/-- A ready-wait draws samples and changes nothing else. -/
theorem waitLoop_sat (A : Allowed) (ds : List Bool) : ∀ s : State, s.env.dreq = ds →
    (waitLoop ds s).Sat A s fun _ t => t.x = s.x ∧ t.sel = s.sel ∧ t.rst = s.rst ∧ t.playing = s.playing ∧
      t.cfg = s.cfg ∧ t.env.rx = s.env.rx ∧ t.env.rxCount = s.env.rxCount := by
  induction ds with
  | nil =>
    intro s h
    simp only [waitLoop, Machine.poll, Env.sample, h]
    cases hb : s.env.dreqRest with
    | true => exact .done (by have := Moves.poll (Moves.refl (A := A) (s := s)); simpa [Machine.poll, Env.sample, h, hb] using this) (by simp [Env.dropSample])
    | false =>
      exact ⟨by have := Moves.poll (Moves.refl (A := A) (s := s)); simpa [Machine.poll, Env.sample, h, hb] using this,
        by simp [HungAt, Env.dropSample, h, hb]⟩
  | cons b bs ih =>
    intro s h
    have hp : Moves A s (Machine.poll s).2 := .poll .refl
    cases b with
    | true =>
      have : waitLoop (true :: bs) s = .done () (Machine.poll s).2 := by simp [waitLoop, Machine.poll, Env.sample, h]
      rw [this]; exact .done hp (by simp [Machine.poll, Env.dropSample])
    | false =>
      have : waitLoop (false :: bs) s = waitLoop bs (Machine.poll s).2 := by
        simp [waitLoop, Machine.poll, Env.sample, h]
      rw [this]
      have ih := ih (Machine.poll s).2 (by simp [Machine.poll, Env.dropSample, h])
      revert ih
      cases waitLoop bs (Machine.poll s).2 with
      | done a t => rintro ⟨h1, h2⟩; exact ⟨hp.trans h1, by simpa [Machine.poll, Env.dropSample] using h2⟩
      | hung g t => rintro ⟨h1, h2⟩; exact ⟨hp.trans h1, h2⟩


theorem waitReady_sat (A : Allowed) (s : State) :
    (waitReady s).Sat A s fun _ t => t.x = s.x ∧ t.sel = s.sel ∧ t.rst = s.rst ∧ t.playing = s.playing ∧
      t.cfg = s.cfg ∧ t.env.rx = s.env.rx ∧ t.env.rxCount = s.env.rxCount := waitLoop_sat A _ s rfl

/-! ## Register frames -/

theorem commitReg_moves {A : Allowed} (hl : A.lines = true) (r : Reg) (s : State) :
    Moves A s (commitReg r s).2 ∧
      ((commitReg r s).1 = .ok ∧ writable s.cfg r = true ∧ (commitReg r s).2.sel = ⟨false, false⟩ ∨
       (commitReg r s).1 = .failNotWritable ∧ writable s.cfg r = false ∧ (commitReg r s).2 = s ∨
       (commitReg r s).1 = .failArbitration ∧ writable s.cfg r = true ∧ s.sel.data = true ∧
        (commitReg r s).2.sel = s.sel) := by
  cases hw : writable s.cfg r with
  | false => rw [commitReg_notWritable hw]; exact ⟨.refl, .inr (.inl ⟨rfl, rfl, rfl⟩)⟩
  | true =>
    cases hd : s.sel.data with
    | true =>
      refine ⟨?_, .inr (.inr ?_)⟩
      · have : (commitReg r s).2 = (Machine.selectCmd true s).2 := by simp [commitReg, hw, selectCmd, hd]
        rw [this]; exact .cmd true hl .refl
      · rw [commitReg_conflict hw hd]; exact ⟨rfl, rfl, rfl, rfl⟩
    | false =>
      refine ⟨?_, .inl ?_⟩
      · have : (commitReg r s).2 = Machine.delay (settleTime s r) (Machine.selectCmd false
            (Machine.send (loByte (s.reg r)) (Machine.send (hiByte (s.reg r)) (Machine.send (regAddr r)
              (Machine.send s.cfg.opCmdWrite (Machine.selectCmd true s).2))))).2 := by
          simp [commitReg, hw, selectCmd, hd, settleTime, State.reg]
        rw [this]
        exact .delay _ (.cmd _ hl (.send _ hl (by simp [selectCmd, hd]) (.send _ hl (by simp [selectCmd, hd])
          (.send _ hl (by simp [selectCmd, hd]) (.send _ hl (by simp [selectCmd, hd]) (.cmd _ hl .refl))))))
      · rw [commitReg_free hw hd]; exact ⟨rfl, rfl, rfl⟩

theorem readReg_sat {A : Allowed} (hl : A.lines = true) {r : Reg} (hr : r ∈ A.regs) (s : State) :
    (readReg r s).Sat A s fun st t => st = .ok ∧ t.sel = ⟨false, false⟩ ∨
      st = .failArbitration ∧ s.sel.data = true ∧ t.sel = s.sel := by
  refine (waitReady_sat A s).bind fun _ t ht => ?_
  obtain ⟨-, hsel, -⟩ := ht
  cases hd : t.sel.data with
  | true =>
    rw [selectCmd_true_conflict hd]
    refine .done ?_ (.inr ⟨rfl, by rw [← hsel]; exact hd, by simpa using hsel⟩)
    have := Moves.cmd true hl (Moves.refl (A := A) (s := t))
    rwa [selectCmd_true_conflict hd] at this
  | false =>
    have : Moves A t (Machine.selectCmd false (Machine.send t.cfg.txFill (Machine.send t.cfg.txFill
        (Machine.send (regAddr r) (Machine.send t.cfg.opCmdRead (Machine.selectCmd true t).2))))).2 :=
      .cmd _ hl (.send _ hl (by simp [selectCmd, hd]) (.send _ hl (by simp [selectCmd, hd])
        (.send _ hl (by simp [selectCmd, hd]) (.send _ hl (by simp [selectCmd, hd]) (.cmd _ hl .refl)))))
    have h2 := Moves.setReg r (t.env.rxAt 2 ++ t.env.rxAt 3) hr this
    simp only [selectCmd_true_free hd] at h2 ⊢
    simp only [xfer_eq]
    simp [xfer, send, emit, selectCmd] at h2 ⊢
    exact .done h2 (.inl ⟨rfl, rfl⟩)

/-! ## Resets and initialization -/

theorem hardReset_sat {A : Allowed} (hA : A.reset = true) (s : State) :
    (hardReset s).Sat A s fun _ t => t.rst = .high := by
  suffices ∀ (ds : List Bool) (u : State), u.env.dreq = ds → u.rst = .high →
      (resetLoop ds u).Sat A u fun _ t => t.rst = .high by
    have hm : Moves A s (Machine.driveReset .high (Machine.delay s.cfg.hardResetLowUs (Machine.driveReset .low s))) :=
      .driveReset _ hA (.delay _ (.driveReset _ hA .refl))
    have := this s.env.dreq (Machine.driveReset .high (Machine.delay s.cfg.hardResetLowUs
      (Machine.driveReset .low s))) rfl rfl
    show (resetLoop s.env.dreq (Machine.driveReset .high (Machine.delay s.cfg.hardResetLowUs
      (Machine.driveReset .low s)))).Sat A s _
    revert this
    cases resetLoop s.env.dreq (Machine.driveReset .high (Machine.delay s.cfg.hardResetLowUs
      (Machine.driveReset .low s))) with
    | done a t => rintro ⟨h1, h2⟩; exact ⟨hm.trans h1, h2⟩
    | hung g t => rintro ⟨h1, h2⟩; exact ⟨hm.trans h1, h2⟩
  intro ds
  induction ds with
  | nil =>
    intro u h hr
    have hp : Moves A u (Machine.poll u).2 := .poll .refl
    cases hb : u.env.dreqRest with
    | true =>
      have : resetLoop [] u = .done () (Machine.poll u).2 := by simp [resetLoop, Machine.poll, Env.sample, h, hb]
      rw [this]; exact .done hp hr
    | false =>
      have : resetLoop [] u = .hung .resetPoll (Machine.poll u).2 := by
        simp [resetLoop, Machine.poll, Env.sample, h, hb]
      rw [this]; exact ⟨hp, by simp [HungAt, Machine.poll, Env.sample, Env.dropSample, h, hb, hr]⟩
  | cons b bs ih =>
    intro u h hr
    have hp : Moves A u (Machine.poll u).2 := .poll .refl
    cases b with
    | true =>
      have : resetLoop (true :: bs) u = .done () (Machine.poll u).2 := by
        simp [resetLoop, Machine.poll, Env.sample, h]
      rw [this]; exact .done hp hr
    | false =>
      have : resetLoop (false :: bs) u = resetLoop bs (Machine.delay Config.pollUs (Machine.poll u).2) := by
        simp [resetLoop, Machine.poll, Env.sample, h]
      rw [this]
      have ih := ih (Machine.delay Config.pollUs (Machine.poll u).2)
        (by simp [Machine.poll, Env.dropSample, h]) hr
      have hp := Moves.delay Config.pollUs hp
      revert ih
      cases resetLoop bs (Machine.delay Config.pollUs (Machine.poll u).2) with
      | done a t => rintro ⟨h1, h2⟩; exact ⟨hp.trans h1, h2⟩
      | hung g t => rintro ⟨h1, h2⟩; exact ⟨hp.trans h1, h2⟩

theorem initLoop_moves {A : Allowed} (hl : A.lines = true) (l : List (Reg × Word)) :
    ∀ s : State, (∀ e ∈ l, e.1 ∈ A.regs) → Moves A s (initLoop l s).2 ∧
      ((initLoop l s).1 = .ok ∨ (initLoop l s).1 = .failArbitration ∨
        (initLoop l s).1 = .failNotWritable ∧ ∃ e ∈ l, writable s.cfg e.1 = false) := by
  induction l with
  | nil => intro s _; exact ⟨.refl, .inl rfl⟩
  | cons e l ih =>
    intro s hm
    obtain ⟨r, v⟩ := e
    have h1 : Moves A s (s.setReg r v) := .setReg _ _ (hm _ (.head _)) .refl
    obtain ⟨h2, h3⟩ := commitReg_moves hl r (s.setReg r v)
    have hc := (h1.trans h2).fixed.2.2.1
    generalize hg : commitReg r (s.setReg r v) = g at h2 h3 hc
    obtain ⟨st, t⟩ := g
    rcases h3 with ⟨rfl, -⟩ | ⟨rfl, hw, -⟩ | ⟨rfl, -⟩
    · have : initLoop ((r, v) :: l) s = initLoop l t := by simp [initLoop, hg]
      rw [this]
      obtain ⟨h4, h5⟩ := ih t fun e he => hm e (.tail _ he)
      refine ⟨(h1.trans h2).trans h4, h5.imp id (Or.imp id fun ⟨a, e, he, hw⟩ => ⟨a, e, .tail _ he, ?_⟩)⟩
      simp only at hc; rwa [hc] at hw
    · have : initLoop ((r, v) :: l) s = (.failNotWritable, t) := by simp [initLoop, hg]
      rw [this]; exact ⟨h1.trans h2, .inr (.inr ⟨rfl, _, .head _, hw⟩)⟩
    · have : initLoop ((r, v) :: l) s = (.failArbitration, t) := by simp [initLoop, hg]
      rw [this]; exact ⟨h1.trans h2, .inr (.inl rfl)⟩

theorem softResetLoop_moves (A : Allowed) (n : Nat) : ∀ s : State, Moves A s (softResetLoop n s).2 := by
  induction n with
  | zero => intro s; exact .poll .refl
  | succ n ih =>
    intro s
    have hp : Moves A s (Machine.poll s).2 := .poll .refl
    cases hb : (Machine.poll s).1 with
    | true =>
      have : softResetLoop (n + 1) s = Machine.poll s := by
        simp only [softResetLoop]; generalize Machine.poll s = g at hb; obtain ⟨b, t⟩ := g; simp at hb; subst hb; rfl
      rw [this]; exact hp
    | false =>
      have : softResetLoop (n + 1) s = softResetLoop n (Machine.delay Config.pollUs (Machine.poll s).2) := by
        simp only [softResetLoop]; generalize Machine.poll s = g at hb; obtain ⟨b, t⟩ := g; simp at hb; subst hb; rfl
      rw [this]; exact (Moves.delay _ hp).trans (ih _)

theorem initList_regs (v : InitValues) : ∀ e ∈ initList v, e.1 ∈ [Reg.mode, .bass, .clockConfig, .volume] := by
  simp [initList]

theorem softReset_sat {A : Allowed} (hl : A.lines = true) (hA : A.reset = true)
    (hr : ∀ r ∈ [Reg.mode, .bass, .clockConfig, .volume], r ∈ A.regs) (s : State) :
    (softReset s).Sat A s fun st t => (t.rst = .high ∨ t.rst = s.rst) ∧
      (st = .ok ∨ st = .failArbitration ∨ st = .failSoftResetTimeout ∨
        st = .failNotWritable ∧ writable s.cfg .mode = false) := by
  have h1 : Moves A s (s.setReg .mode (s.reg .mode ||| modeResetMask s.cfg)) :=
    .setReg _ _ (hr _ (.head _)) .refl
  have keep : ∀ {t : State}, Moves ⟨A.regs, true, false, A.play⟩ s t → t.rst = s.rst := fun h =>
    (h.events.choose_spec.2.2.1 rfl).1
  obtain ⟨h2, h3⟩ := commitReg_moves (A := A) hl .mode (s.setReg .mode (s.reg .mode ||| modeResetMask s.cfg))
  have h2' := (commitReg_moves (A := ⟨A.regs, true, false, A.play⟩) rfl .mode
    (s.setReg .mode (s.reg .mode ||| modeResetMask s.cfg))).1
  have h1' : Moves ⟨A.regs, true, false, A.play⟩ s (s.setReg .mode (s.reg .mode ||| modeResetMask s.cfg)) :=
    .setReg _ _ (hr _ (.head _)) .refl
  unfold softReset
  generalize hg : commitReg .mode (s.setReg .mode (s.reg .mode ||| modeResetMask s.cfg)) = g at h2 h2' h3
  obtain ⟨st, t⟩ := g
  rcases h3 with ⟨rfl, -⟩ | ⟨rfl, hw, -⟩ | ⟨rfl, -⟩
  · simp only [hg]
    have h4 := softResetLoop_moves A softResetDelays t
    have h4' := softResetLoop_moves ⟨A.regs, true, false, A.play⟩ softResetDelays t
    generalize softResetLoop softResetDelays t = q at h4 h4'
    obtain ⟨b, u⟩ := q
    cases b with
    | true =>
      have h5 := (initLoop_moves hl (initList u.cfg.initValue) u fun e he => hr _ (initList_regs _ e he)).1
      have h5' := (initLoop_moves (A := ⟨A.regs, true, false, A.play⟩) rfl (initList u.cfg.initValue) u
        fun e he => hr _ (initList_regs _ e he)).1
      exact .done ((h1.trans h2).trans (h4.trans h5)) ⟨.inr (keep ((h1'.trans h2').trans (h4'.trans h5'))), .inl rfl⟩
    | false =>
      have := hardReset_sat hA u
      simp only
      revert this
      cases hardReset u with
      | done a w => rintro ⟨h5, h6⟩; exact .done ((h1.trans h2).trans (h4.trans h5)) ⟨.inl h6, by simp⟩
      | hung g w => rintro ⟨h5, h6⟩; exact ⟨(h1.trans h2).trans (h4.trans h5), h6⟩
  · simp only [hg]; exact .done (h1.trans h2) ⟨.inr (keep (h1'.trans h2')), by simpa using hw⟩
  · simp only [hg]; exact .done (h1.trans h2) ⟨.inr (keep (h1'.trans h2')), by simp⟩

/-! ## Data frames -/

theorem flowControl_sat {A : Allowed} (hl : A.lines = true) (i : Nat) (s : State) (hs : s.sel = ⟨false, true⟩) :
    (flowControl i s).Sat A s fun _ t => t.sel = ⟨false, true⟩ := by
  unfold flowControl
  split
  · have h1 : Moves A s (Machine.selectData true (Machine.selectData false s).2).2 := .data _ hl (.data _ hl .refl)
    have := waitReady_sat A (Machine.selectData true (Machine.selectData false s).2).2
    unfold resync
    simp only
    revert this
    cases waitReady (Machine.selectData true (Machine.selectData false s).2).2 with
    | done a t =>
      rintro ⟨h2, -, h3, -⟩
      exact ⟨h1.trans h2, by show t.sel = _; rw [h3]; simp [selectData, hs]⟩
    | hung g t => rintro ⟨h2, h3⟩; exact ⟨h1.trans h2, h3⟩
  · exact .done .refl hs

theorem writeBytes_sat {A : Allowed} (hl : A.lines = true) (p : List Byte) : ∀ (i : Nat) (s : State),
    s.sel = ⟨false, true⟩ → (writeBytes i p s).Sat A s fun _ t => t.sel = ⟨false, true⟩ := by
  induction p with
  | nil => intro i s hs; exact .done .refl hs
  | cons b p ih =>
    intro i s hs
    refine (flowControl_sat hl i s hs).bind fun _ t ht => ?_
    have h1 : Moves A t (Machine.send b t) := .send b hl (by simp [ht]) .refl
    have := ih (i + 1) (Machine.send b t) ht
    revert this
    cases writeBytes (i + 1) p (Machine.send b t) with
    | done a u => rintro ⟨h2, h3⟩; exact ⟨h1.trans h2, h3⟩
    | hung g u => rintro ⟨h2, h3⟩; exact ⟨h1.trans h2, h3⟩

theorem readBytes_sat {A : Allowed} (hl : A.lines = true) (n : Nat) : ∀ (i : Nat) (d : List Byte) (s : State),
    s.sel = ⟨false, true⟩ → (readBytes n i d s).Sat A s fun _ t => t.sel = ⟨false, true⟩ := by
  induction n with
  | zero => intro i d s hs; exact .done .refl hs
  | succ n ih =>
    intro i d s hs
    refine (flowControl_sat hl i s hs).bind fun _ t ht => ?_
    have h1 : Moves A t (Machine.send t.cfg.txFill t) := .send _ hl (by simp [ht]) .refl
    have := ih (i + 1) (d ++ [t.env.rxAt 0]) (Machine.send t.cfg.txFill t) ht
    simp only [xfer_eq]
    revert this
    cases readBytes n (i + 1) (d ++ [t.env.rxAt 0]) (Machine.send t.cfg.txFill t) with
    | done a u => rintro ⟨h2, h3⟩; exact ⟨h1.trans h2, h3⟩
    | hung g u => rintro ⟨h2, h3⟩; exact ⟨h1.trans h2, h3⟩

theorem openFrame_sat {A : Allowed} (hl : A.lines = true) (a : Addr) (n : Nat) (s : State) :
    (openFrame a n s).Sat A s fun st t =>
      st = .ok ∧ t.sel = ⟨false, true⟩ ∧ s.sel.cmd = false ∨
      (st = .failInvalidAddress ∨ st = .failZeroSize ∧ n = 0 ∨ st = .failArbitration ∧ s.sel.cmd = true) ∧
        t.sel = s.sel := by
  refine (waitReady_sat A s).bind fun _ t ht => ?_
  obtain ⟨-, hsel, -⟩ := ht
  split
  · exact .done .refl (.inr ⟨by simp, hsel⟩)
  · split
    · exact .done .refl (.inr ⟨by simp [*], hsel⟩)
    · have := Moves.data true hl (Moves.refl (A := A) (s := t))
      cases hc : t.sel.cmd with
      | true =>
        rw [selectData_true_conflict hc] at this ⊢
        exact .done this (.inr ⟨.inr (.inr ⟨rfl, by rw [← hsel]; exact hc⟩), hsel⟩)
      | false =>
        rw [selectData_true_free hc] at this ⊢
        exact .done this (.inl ⟨rfl, rfl, by rw [← hsel]; exact hc⟩)

theorem transferOut_sat {A : Allowed} (hl : A.lines = true) (a : Addr) (p : List Byte) (s : State) :
    (transferOut a p s).Sat A s fun st t =>
      st = .ok ∧ t.sel = ⟨false, false⟩ ∨
      (st = .failInvalidAddress ∨ st = .failZeroSize ∧ p = [] ∨ st = .failArbitration ∧ s.sel.cmd = true) ∧
        t.sel = s.sel := by
  refine (openFrame_sat hl a p.length s).bind fun st t ht => ?_
  rcases ht with ⟨rfl, hsel, -⟩ | ⟨h, hsel⟩
  · have h1 : Moves A t (Machine.send (hdrAddr t.cfg a) (Machine.send t.cfg.opDataWrite t)) :=
      .send _ hl (by simp [hsel]) (.send _ hl (by simp [hsel]) .refl)
    have := (writeBytes_sat hl p 0 (Machine.send (hdrAddr t.cfg a) (Machine.send t.cfg.opDataWrite t)) hsel).bind
      (f := fun _ s => Res.done Status.ok (selectData false s).2)
      (Q' := fun st t => st = .ok ∧ t.sel = ⟨false, false⟩) fun _ u hu =>
        .done (.data _ hl .refl) (by simp [selectData, hu])
    simp only [send_cfg]
    revert this
    cases (writeBytes 0 p (Machine.send (hdrAddr t.cfg a) (Machine.send t.cfg.opDataWrite t))).bind
      (fun _ s => Res.done Status.ok (selectData false s).2) with
    | done b u => rintro ⟨h2, h3⟩; exact ⟨h1.trans h2, .inl h3⟩
    | hung g u => rintro ⟨h2, h3⟩; exact ⟨h1.trans h2, h3⟩
  · rcases h with rfl | ⟨rfl, h⟩ | ⟨rfl, h⟩
    · exact .done .refl (.inr ⟨by simp, hsel⟩)
    · exact .done .refl (.inr ⟨by simpa using h, hsel⟩)
    · exact .done .refl (.inr ⟨by simpa using h, hsel⟩)

theorem transferIn_sat {A : Allowed} (hl : A.lines = true) (a : Addr) (n : Nat) (s : State) :
    (transferIn a n s).Sat A s fun r _ =>
      r.1 = .ok ∨ (r.1 = .failInvalidAddress ∨ r.1 = .failZeroSize ∨ r.1 = .failArbitration) ∧ r.2 = [] := by
  refine (openFrame_sat hl a n s).bind fun st t ht => ?_
  rcases ht with ⟨rfl, hsel, -⟩ | ⟨h, hsel⟩
  · have h1 : Moves A t (Machine.send (hdrAddr t.cfg a) (Machine.send t.cfg.opDataRead t)) :=
      .send _ hl (by simp [hsel]) (.send _ hl (by simp [hsel]) .refl)
    have := (readBytes_sat hl n 0 [] (Machine.send (hdrAddr t.cfg a) (Machine.send t.cfg.opDataRead t)) hsel).bind
      (f := fun d s => Res.done (Status.ok, d) (selectData false s).2)
      (Q' := fun r _ => r.1 = .ok) fun _ u hu => .done (.data _ hl .refl) rfl
    simp only [send_cfg]
    revert this
    cases (readBytes n 0 [] (Machine.send (hdrAddr t.cfg a) (Machine.send t.cfg.opDataRead t))).bind
      (fun d s => Res.done (Status.ok, d) (selectData false s).2) with
    | done b u => rintro ⟨h2, h3⟩; exact ⟨h1.trans h2, .inl h3⟩
    | hung g u => rintro ⟨h2, h3⟩; exact ⟨h1.trans h2, h3⟩
  · rcases h with rfl | ⟨rfl, h⟩ | ⟨rfl, h⟩ <;> exact .done .refl (.inr (by simp))

/-! ## Padding and playback -/

theorem fetchFill_sat {A : Allowed} (hl : A.lines = true) (hr : ∀ r ∈ [Reg.wramAddr, .wramData], r ∈ A.regs)
    (s : State) :
    (fetchFill s).Sat A s fun r t =>
      r.1 = .ok ∧ t.sel = ⟨false, false⟩ ∨ r.1 = .failArbitration ∨
        r.1 = .failNotWritable ∧ writable s.cfg .wramAddr = false := by
  have h1 : Moves A s (s.setReg .wramAddr s.cfg.fillAddr) := .setReg _ _ (hr _ (by simp)) .refl
  obtain ⟨h2, h3⟩ := commitReg_moves hl .wramAddr (s.setReg .wramAddr s.cfg.fillAddr)
  unfold fetchFill
  generalize hg : commitReg .wramAddr (s.setReg .wramAddr s.cfg.fillAddr) = g at h2 h3
  obtain ⟨st, t⟩ := g
  rcases h3 with ⟨rfl, -, hsel⟩ | ⟨rfl, hw, -⟩ | ⟨rfl, -⟩
  · have := readReg_sat hl (hr .wramData (by simp)) t
    simp only
    revert this
    cases readReg .wramData t with
    | done b u =>
      rintro ⟨h4, ⟨rfl, h5⟩ | ⟨rfl, h5, -⟩⟩
      · exact .done ((h1.trans h2).trans h4) (.inl ⟨rfl, h5⟩)
      · exact .done ((h1.trans h2).trans h4) (.inr (.inl rfl))
    | hung g u => rintro ⟨h4, h5⟩; exact ⟨(h1.trans h2).trans h4, h5⟩
  · exact .done (h1.trans h2) (.inr (.inr ⟨rfl, hw⟩))
  · exact .done (h1.trans h2) (.inr (.inl rfl))

theorem padLoop_sat {A : Allowed} (hl : A.lines = true) (a : Addr) (n : Nat) (f : Byte) (l : Nat) :
    ∀ (k : Nat) (s : State), (∀ j, j < k + l → 32 * j < n) →
      (padLoop a n f l k s).Sat A s fun st _ => st = .ok ∨ st = .failInvalidAddress ∨ st = .failArbitration := by
  induction l with
  | zero => intro k s _; exact .done .refl (.inl rfl)
  | succ l ih =>
    intro k s hn
    refine (transferOut_sat hl _ _ s).bind fun st t ht => ?_
    rcases ht with ⟨rfl, -⟩ | ⟨rfl | ⟨rfl, h⟩ | ⟨rfl, -⟩, -⟩
    · exact ih (k + 1) t fun j hj => hn j (by omega)
    · exact .done .refl (by simp)
    · have := hn k (by omega)
      simp [chunkSize, Config.chunk] at h
      omega
    · exact .done .refl (by simp)

theorem sendPadding_sat {A : Allowed} (hl : A.lines = true) (hr : ∀ r ∈ [Reg.wramAddr, .wramData], r ∈ A.regs)
    (a : Addr) (n : Nat) (s : State) :
    (sendPadding a n s).Sat A s fun st _ => st = .ok ∨ st = .failInvalidAddress ∨ st = .failArbitration ∨
      st = .failNotWritable ∧ writable s.cfg .wramAddr = false := by
  refine (fetchFill_sat hl hr s).bind fun r t ht => ?_
  obtain ⟨st, f⟩ := r
  rcases ht with ⟨h, -⟩ | h | ⟨h, hw⟩ <;> simp only at h <;> subst h
  · refine (padLoop_sat hl a n f _ 0 t fun j hj => ?_).mono fun st u h => by tauto
    rw [ceilDiv_chunk] at hj; omega
  · exact .done .refl (by simp)
  · exact .done .refl (by simpa using hw)

theorem playBody_sat {A : Allowed} (hl : A.lines = true) (hr : ∀ r ∈ [Reg.wramAddr, .wramData], r ∈ A.regs)
    (p : List Byte) (s : State) :
    (playBody p s).Sat A s fun st _ => st = .ok ∨ st = .failInvalidAddress ∨ st = .failZeroSize ∨
      st = .failArbitration ∨ st = .failNotWritable ∧ writable s.cfg .wramAddr = false := by
  have hq := transferOut_sat hl s.cfg.playbackAddr p s
  unfold playBody
  cases ho : transferOut s.cfg.playbackAddr p s with
  | hung g t => rw [ho] at hq; exact hq
  | done st t =>
    rw [ho] at hq
    obtain ⟨hm, hq⟩ := hq
    have hcfg := hm.fixed.2.2.1
    simp only [bind_done]
    rcases hq with ⟨rfl, -⟩ | ⟨rfl | ⟨rfl, -⟩ | ⟨rfl, -⟩, -⟩
    · have hp := (sendPadding_sat hl hr t.cfg.padAddr Config.playPadBytes t).bind
        (f := fun st s => match st with
          | .ok => Res.done Status.ok (Machine.delay Config.drainUs s)
          | st => .done st s)
        (Q' := fun st _ => st = .ok ∨ st = .failInvalidAddress ∨ st = .failZeroSize ∨
          st = .failArbitration ∨ st = .failNotWritable ∧ writable s.cfg .wramAddr = false) fun st u hu => by
            rcases hu with rfl | rfl | rfl | ⟨rfl, hu⟩
            · exact .done (.delay _ .refl) (by simp)
            · exact .done .refl (by simp)
            · exact .done .refl (by simp)
            · exact .done .refl (by rw [← hcfg]; simpa using hu)
      simp only
      revert hp
      generalize (sendPadding t.cfg.padAddr Config.playPadBytes t).bind _ = q
      cases q with
      | done b u => rintro ⟨h2, h3⟩; exact ⟨hm.trans h2, h3⟩
      | hung g u => rintro ⟨h2, h3⟩; exact ⟨hm.trans h2, h3⟩
    · exact .done hm (by simp)
    · exact .done hm (by simp)
    · exact .done hm (by simp)

theorem startPlayback_sat {A : Allowed} (hl : A.lines = true) (hp : A.play = true)
    (hr : ∀ r ∈ [Reg.wramAddr, .wramData], r ∈ A.regs) (p : List Byte) (s : State) :
    (startPlayback p s).Sat A s fun st t => (t.playing = false ∨ t.playing = s.playing) ∧
      (st = .ok ∨ st = .failInvalidAddress ∨ st = .failZeroSize ∨
        st = .failArbitration ∨ st = .failNotWritable ∧ writable s.cfg .wramAddr = false) := by
  have hq := waitReady_sat A s
  unfold startPlayback
  cases ho : waitReady s with
  | hung g t => rw [ho] at hq; exact hq
  | done st t =>
    rw [ho] at hq
    obtain ⟨hm, -, hsel, -, hplay, hcfg, -⟩ := hq
    simp only [bind_done]
    have hd := Moves.data true hl (Moves.refl (A := A) (s := t))
    cases hc : t.sel.cmd with
    | true =>
      rw [selectData_true_conflict hc] at hd ⊢
      exact .done (hm.trans hd) ⟨.inr hplay, by simp⟩
    | false =>
      have h1 : Moves A t (Machine.setPlaying true (Machine.selectData false (Machine.send 0x00#8
          (Machine.send 0x00#8 (Machine.selectData true t).2))).2) :=
        .setPlaying _ hp (.data _ hl (.send _ hl (by simp [selectData, hc])
          (.send _ hl (by simp [selectData, hc]) (.data _ hl .refl))))
      rw [selectData_true_free hc] at h1 ⊢
      simp only
      generalize hu : Machine.setPlaying true (Machine.selectData false (Machine.send 0x00#8
        (Machine.send 0x00#8 (State.log { t with sel := ⟨false, true⟩ } [Event.pin .xdcs .low])))).2 = u at h1
      have hcfg' : u.cfg = s.cfg := by rw [h1.fixed.2.2.1, hcfg]
      have := (playBody_sat hl hr p u).bind (f := fun st s => Res.done st (Machine.setPlaying false s))
        (Q' := fun st w => w.playing = false ∧ (st = .ok ∨ st = .failInvalidAddress ∨ st = .failZeroSize ∨
          st = .failArbitration ∨ st = .failNotWritable ∧ writable s.cfg .wramAddr = false)) fun st w hw =>
            .done (.setPlaying _ hp .refl) ⟨rfl, by rwa [hcfg'] at hw⟩
      revert this
      generalize (playBody p u).bind _ = q
      cases q with
      | done b w => rintro ⟨h2, h3, h4⟩; exact ⟨(hm.trans h1).trans h2, .inl h3, h4⟩
      | hung g w => rintro ⟨h2, h3⟩; exact ⟨(hm.trans h1).trans h2, h3⟩

/-! ## One command -/

/-- What an instruction's moves may touch. -/
def Instr.allowed (i : Instr) : Allowed where
  regs := i.mayWrite
  lines := match i with
    | .qcmd | .qdata | .qready | .lasgn _ _ | .lset _ _ | .lclr _ _ | .rdcache _ | .settle _ | .valid _ | .hrst => false
    | _ => true
  reset := match i with
    | .hrst | .srst => true
    | _ => false
  play := match i with
    | .play _ _ => true
    | _ => false

/-- A command ends with a response after allowed moves, or hangs in a wait it has after allowed moves. -/
def Ends (i : Instr) (s : State) (r : Host.Outcome State Fault Refusal) : Prop :=
  ∃ u, Moves (Instr.allowed i) s u ∧
    ((∃ p : Reply, r = .next (respond p u) ∧ (s.cfg.wf = true → p.status.code ∈ i.mayAnswer s.cfg) ∧
        (p.status ≠ .ok → p.value = 0 ∧ p.data = []) ∧ ((∀ a n, i ≠ .xin a n) → p.data = []) ∧
        (u.rst = .high ∨ u.rst = s.rst) ∧ (u.playing = false ∨ u.playing = s.playing)) ∨
     (∃ h, r = .next { u with hang := some h } ∧ HungAt h u ∧ i.mayHang = true ∧ (u.rst = .high ∨ u.rst = s.rst)))

theorem Moves.rst {A : Allowed} {s t : State} (h : Moves A s t) (hA : A.reset = false) : t.rst = s.rst := by
  obtain ⟨es, -, -, h, -⟩ := h.events
  exact (h hA).1

theorem Moves.playing {A : Allowed} {s t : State} (h : Moves A s t) (hA : A.play = false) :
    t.playing = s.playing := by
  obtain ⟨es, -, -, -, h, -⟩ := h.events
  exact (h hA).1

/-- A command that ends at once. -/
theorem Ends.of_done {i : Instr} {s u : State} {p : Reply} (h : Moves (Instr.allowed i) s u)
    (hp : p.status.code ∈ i.mayAnswer s.cfg) (hv : p.status ≠ .ok → p.value = 0 ∧ p.data = []) (hd : p.data = [])
    (hr : (Instr.allowed i).reset = false) (hq : (Instr.allowed i).play = false) :
    Ends i s (finish (.done p u)) :=
  ⟨u, h, .inl ⟨p, rfl, fun _ => hp, hv, fun _ => hd, .inr (h.rst hr), .inr (h.playing hq)⟩⟩

/-- A command without value and data, over a procedure that may hang. -/
theorem Ends.of_sat {α : Type} {i : Instr} {s : State} {r : Res α} {Q : α → State → Prop} (f : α → Reply)
    (h : r.Sat (Instr.allowed i) s Q) (hm : i.mayHang = true)
    (hq : ∀ a t, Q a t → (s.cfg.wf = true → (f a).status.code ∈ i.mayAnswer s.cfg) ∧
      ((f a).status ≠ .ok → (f a).value = 0 ∧ (f a).data = []) ∧ ((∀ b n, i ≠ .xin b n) → (f a).data = []))
    (hr : (Instr.allowed i).reset = false) (hp : ∀ a t, Moves (Instr.allowed i) s t → Q a t → t.playing = false ∨ t.playing = s.playing) :
    Ends i s (finish (r.bind fun a s => .done (f a) s)) := by
  cases r with
  | done a t =>
    obtain ⟨h1, h2⟩ := h
    obtain ⟨h3, h4, h5⟩ := hq a t h2
    exact ⟨t, h1, .inl ⟨f a, rfl, h3, h4, h5, .inr (h1.rst hr), hp a t h1 h2⟩⟩
  | hung g t => exact ⟨t, h.1, .inr ⟨g, rfl, h.2, hm, .inr (h.1.rst hr)⟩⟩

theorem hardReset_hung {s t : State} {g : Hang} (h : hardReset s = .hung g t) : t.rst = .high := by
  rcases s.env.ready_or_never with ⟨n, ds, hr⟩ | hn
  · rw [hardReset_readyAfter hr] at h; cases h
  · rw [hardReset_neverReady hn] at h; cases h; rfl

theorem softReset_hung {s t : State} {g : Hang} (h : softReset s = .hung g t) : t.rst = .high := by
  unfold softReset at h
  simp only at h
  split at h
  · split at h
    · cases h
    · generalize hq : hardReset _ = q at h
      cases q with
      | done a u => cases h
      | hung g' u => rw [bind_hung] at h; injection h with h1 h2; exact h2 ▸ hardReset_hung hq
  · cases h

theorem wf_mode {c : Cfg} (h : c.wf = true) : writable c .mode = true ∧ writable c .bass = true ∧
    writable c .clockConfig = true ∧ writable c .volume = true := by
  simp only [Cfg.wf, Bool.and_eq_true] at h
  obtain ⟨⟨⟨⟨-, ⟨⟨h1, h2⟩, h3⟩, h4⟩, -⟩, -⟩, -⟩ := h
  exact ⟨h1, h2, h3, h4⟩

/-- Every command, in every state. -/
theorem exec_ends (i : Instr) (s : State) : Ends i s (exec i s) := by
  cases i with
  | selcmd b =>
    have hm := Moves.cmd (A := Instr.allowed (.selcmd b)) b rfl (.refl (s := s))
    show Ends _ s (execSelcmd b s)
    unfold execSelcmd
    generalize selectCmd b s = g at hm
    obtain ⟨_ | _, t⟩ := g
    · exact .of_done hm (by simp [Instr.mayAnswer, Status.code]) (by simp) rfl rfl rfl
    · exact .of_done hm (by simp [Instr.mayAnswer, Status.code]) (by simp) rfl rfl rfl
  | seldata b =>
    have hm := Moves.data (A := Instr.allowed (.seldata b)) b rfl (.refl (s := s))
    show Ends _ s (execSeldata b s)
    unfold execSeldata
    generalize selectData b s = g at hm
    obtain ⟨_ | _, t⟩ := g
    · exact .of_done hm (by simp [Instr.mayAnswer, Status.code]) (by simp) rfl rfl rfl
    · exact .of_done hm (by simp [Instr.mayAnswer, Status.code]) (by simp) rfl rfl rfl
  | qcmd => exact .of_done .refl (by simp [Instr.mayAnswer, Status.code]) (by simp) rfl rfl rfl
  | qdata => exact .of_done .refl (by simp [Instr.mayAnswer, Status.code]) (by simp) rfl rfl rfl
  | qready => exact .of_done (.poll .refl) (by simp [Instr.mayAnswer, Status.code]) (by simp) rfl rfl rfl
  | lupd r =>
    refine .of_sat (fun st => ⟨st, 0, []⟩) (readReg_sat rfl (.head _) s) rfl (fun st t h => ?_) rfl
      fun _ t h _ => .inr (h.playing rfl)
    rcases h with ⟨rfl, -⟩ | ⟨rfl, -⟩ <;> simp [Instr.mayAnswer, Status.code]
  | lasgn r v => exact .of_done (.setReg _ _ (.head _) .refl) (by simp [Instr.mayAnswer, Status.code]) (by simp) rfl rfl rfl
  | lset r v => exact .of_done (.setReg _ _ (.head _) .refl) (by simp [Instr.mayAnswer, Status.code]) (by simp) rfl rfl rfl
  | lclr r v => exact .of_done (.setReg _ _ (.head _) .refl) (by simp [Instr.mayAnswer, Status.code]) (by simp) rfl rfl rfl
  | commit r =>
    obtain ⟨hm, hc⟩ := commitReg_moves (A := Instr.allowed (.commit r)) rfl r s
    show Ends _ s (execCommit r s)
    unfold execCommit
    generalize commitReg r s = g at hm hc
    obtain ⟨st, t⟩ := g
    refine .of_done hm ?_ (by simp) rfl rfl rfl
    rcases hc with ⟨rfl, -⟩ | ⟨rfl, -⟩ | ⟨rfl, -⟩ <;> simp [Instr.mayAnswer, Status.code]
  | rdcache r => exact .of_done .refl (by simp [Instr.mayAnswer, Status.code]) (by simp) rfl rfl rfl
  | settle r => exact .of_done .refl (by simp [Instr.mayAnswer, Status.code]) (by simp) rfl rfl rfl
  | hrst =>
    have h := hardReset_sat (A := Instr.allowed .hrst) rfl s
    show Ends _ s (finish ((hardReset s).bind _))
    cases hr : hardReset s with
    | done a t =>
      rw [hr] at h
      exact ⟨t, h.1, .inl ⟨_, rfl, by simp [Instr.mayAnswer, Status.code], by simp, by simp, .inl h.2,
        .inr (h.1.playing rfl)⟩⟩
    | hung g t => rw [hr] at h; exact ⟨t, h.1, .inr ⟨g, rfl, h.2, rfl, .inl (hardReset_hung hr)⟩⟩
  | srst =>
    have h := softReset_sat (A := Instr.allowed .srst) rfl rfl (fun r h => h) s
    show Ends _ s (finish ((softReset s).bind _))
    cases hr : softReset s with
    | done a t =>
      rw [hr] at h
      obtain ⟨h1, h2, h3⟩ := h
      refine ⟨t, h1, .inl ⟨_, rfl, fun hw => ?_, by simp, by simp, h2, .inr (h1.playing rfl)⟩⟩
      rcases h3 with rfl | rfl | rfl | ⟨rfl, h3⟩
      · simp [Instr.mayAnswer, Status.code]
      · simp [Instr.mayAnswer, Status.code]
      · simp [Instr.mayAnswer, Status.code]
      · simp [(wf_mode hw).1] at h3
    | hung g t => rw [hr] at h; exact ⟨t, h.1, .inr ⟨g, rfl, h.2, rfl, .inl (softReset_hung hr)⟩⟩
  | init =>
    obtain ⟨hm, hc⟩ := initLoop_moves (A := Instr.allowed .init) rfl (initList s.cfg.initValue) s fun e he => initList_regs _ e he
    show Ends _ s (execInit s)
    unfold execInit initSystem
    generalize initLoop (initList s.cfg.initValue) s = g at hm hc
    obtain ⟨st, t⟩ := g
    refine ⟨t, hm, .inl ⟨⟨st, 0, []⟩, rfl, fun hw => ?_, by simp, by simp, .inr (hm.rst rfl), .inr (hm.playing rfl)⟩⟩
    obtain ⟨w1, w2, w3, w4⟩ := wf_mode hw
    rcases hc with rfl | rfl | ⟨rfl, e, he, hw'⟩
    · simp [Instr.mayAnswer, Status.code]
    · simp [Instr.mayAnswer, Status.code]
    · have := initList_regs _ e he
      simp only [List.mem_cons, List.not_mem_nil, or_false] at this
      rcases this with h | h | h | h <;> simp_all
  | valid a => exact .of_done .refl (by simp [Instr.mayAnswer, Status.code]) (by simp) rfl rfl rfl
  | xout a n p =>
    have h := transferOut_sat (A := Instr.allowed (.xout a n p)) rfl a p s
    show Ends _ s (finish ((transferOut a p s).bind _))
    refine .of_sat (fun st => ⟨st, 0, []⟩) h rfl (fun st t h => ?_) rfl fun _ t h _ => .inr (h.playing rfl)
    rcases h with ⟨rfl, -⟩ | ⟨rfl | ⟨rfl, -⟩ | ⟨rfl, -⟩, -⟩ <;> simp [Instr.mayAnswer, Status.code]
  | xin a n =>
    have h := transferIn_sat (A := Instr.allowed (.xin a n)) rfl a n.toNat s
    show Ends _ s (finish ((transferIn a n.toNat s).bind _))
    refine .of_sat (fun r => ⟨r.1, 0, r.2⟩) h rfl (fun r t h => ?_) rfl fun _ t h _ => .inr (h.playing rfl)
    obtain ⟨st, d⟩ := r
    rcases h with h | ⟨h | h | h, h'⟩ <;> simp only at h <;> subst h <;> simp_all [Instr.mayAnswer, Status.code]
  | pad a n =>
    have h := sendPadding_sat (A := Instr.allowed (.pad a n)) rfl
      (fun r h => h) a n.toNat s
    show Ends _ s (finish ((sendPadding a n.toNat s).bind _))
    refine .of_sat (fun st => ⟨st, 0, []⟩) h rfl (fun st t h => ?_) rfl fun _ t h _ => .inr (h.playing rfl)
    rcases h with rfl | rfl | rfl | ⟨rfl, h⟩ <;> simp_all [Instr.mayAnswer, Status.code]
  | play n p =>
    have h := startPlayback_sat (A := Instr.allowed (.play n p)) rfl rfl
      (fun r h => h) p s
    show Ends _ s (finish ((startPlayback p s).bind _))
    refine .of_sat (fun st => ⟨st, 0, []⟩) h rfl (fun st t h => ?_) rfl fun _ t _ h => h.1
    obtain ⟨-, h⟩ := h
    rcases h with rfl | rfl | rfl | rfl | ⟨rfl, h⟩ <;> simp_all [Instr.mayAnswer, Status.code]

end Sys2Proof.Machine
end

