-- ==== Sys2Proof/Laws/PerInstr.lean ====
section
/-! SUPPORT. Per-instruction lemmas: what an instruction's word says, one lemma per constructor of `Instr`. -/

namespace Sys2Proof.Laws.RowFields

/-- The instruction's word has its row's opcode, zeros in every reserved bit of the row's format, and gives the
operands back (R101, R102, R103, R110). -/
def Statement (i : Instr) : Prop :=
  opcField i.word = i.opcode.code ∧ reservedBitsZero i.opcode.format i.word = true ∧
    operands i.opcode i.word i.payload = i

theorem selcmd (b : Bool) : Statement (.selcmd b) :=
  ⟨opcField_layout .., zero_s _ _, by simp [operands, Instr.opcode, Instr.word, actField_layout]⟩
theorem seldata (b : Bool) : Statement (.seldata b) :=
  ⟨opcField_layout .., zero_s _ _, by simp [operands, Instr.opcode, Instr.word, actField_layout]⟩
theorem qcmd : Statement (.qcmd) :=
  ⟨opcField_layout .., zero_n _, rfl⟩
theorem qdata : Statement (.qdata) :=
  ⟨opcField_layout .., zero_n _, rfl⟩
theorem qready : Statement (.qready) :=
  ⟨opcField_layout .., zero_n _, rfl⟩
theorem lupd (r : Reg) : Statement (.lupd r) :=
  ⟨opcField_layout .., zero_r _ _, by simp [operands, Instr.opcode, Instr.word, regField_layout]⟩
theorem lasgn (r : Reg) (v : Word) : Statement (.lasgn r v) :=
  ⟨opcField_layout .., zero_rv _ _ _, by simp [operands, Instr.opcode, Instr.word, regField_layout, valField_layout]⟩
theorem lset (r : Reg) (v : Word) : Statement (.lset r v) :=
  ⟨opcField_layout .., zero_rv _ _ _, by simp [operands, Instr.opcode, Instr.word, regField_layout, valField_layout]⟩
theorem lclr (r : Reg) (v : Word) : Statement (.lclr r v) :=
  ⟨opcField_layout .., zero_rv _ _ _, by simp [operands, Instr.opcode, Instr.word, regField_layout, valField_layout]⟩
theorem commit (r : Reg) : Statement (.commit r) :=
  ⟨opcField_layout .., zero_r _ _, by simp [operands, Instr.opcode, Instr.word, regField_layout]⟩
theorem rdcache (r : Reg) : Statement (.rdcache r) :=
  ⟨opcField_layout .., zero_r _ _, by simp [operands, Instr.opcode, Instr.word, regField_layout]⟩
theorem settle (r : Reg) : Statement (.settle r) :=
  ⟨opcField_layout .., zero_r _ _, by simp [operands, Instr.opcode, Instr.word, regField_layout]⟩
theorem hrst : Statement (.hrst) :=
  ⟨opcField_layout .., zero_n _, rfl⟩
theorem srst : Statement (.srst) :=
  ⟨opcField_layout .., zero_n _, rfl⟩
theorem init : Statement (.init) :=
  ⟨opcField_layout .., zero_n _, rfl⟩
theorem valid (a : Addr) : Statement (.valid a) :=
  ⟨opcField_layout .., zero_a _ _, by simp [operands, Instr.opcode, Instr.word, addrField_layout]⟩
theorem xout (a : Addr) (n : Count) (p : List Byte) : Statement (.xout a n p) :=
  ⟨opcField_layout .., zero_al _ _ _,
    by simp [operands, Instr.opcode, Instr.word, Instr.payload, addrField_layout, lenField_layout]⟩
theorem xin (a : Addr) (n : Count) : Statement (.xin a n) :=
  ⟨opcField_layout .., zero_al _ _ _, by simp [operands, Instr.opcode, Instr.word, addrField_layout, lenField_layout]⟩
theorem pad (a : Addr) (n : Count) : Statement (.pad a n) :=
  ⟨opcField_layout .., zero_al _ _ _, by simp [operands, Instr.opcode, Instr.word, addrField_layout, lenField_layout]⟩
theorem play (n : Count) (p : List Byte) : Statement (.play n p) :=
  ⟨opcField_layout .., zero_l _ _, by simp [operands, Instr.opcode, Instr.word, Instr.payload, lenField_layout]⟩

end Sys2Proof.Laws.RowFields
end

