-- ==== Sys2Proof/Laws/Protocol.lean ====
section
/-! SUPPORT. The laws of system initialization and of a soft reset (R220 to R222, R230). -/

namespace Sys2Proof.Machine

/-- The four assignments of `Init()` on the mirror (R230). -/
def State.initialised (s : State) : State :=
  (((s.setReg .mode s.cfg.initValue.mode).setReg .bass s.cfg.initValue.bass).setReg .clockConfig
    s.cfg.initValue.clockConfig).setReg .volume s.cfg.initValue.volume

/-- The four frames of `Init()` (R230): the first two timed by the old clock value, the last two by the new one. -/
def initFrames (s : State) : List Event :=
  writeFrame s.cfg s.env.rxAt .mode s.cfg.initValue.mode (settleTime s .mode) ++
  writeFrame s.cfg (s.env.dropRx 4).rxAt .bass s.cfg.initValue.bass (settleTime s .bass) ++
  writeFrame s.cfg (s.env.dropRx 8).rxAt .clockConfig s.cfg.initValue.clockConfig
    (settleFor s.cfg s.cfg.initValue.clockConfig .clockConfig) ++
  writeFrame s.cfg (s.env.dropRx 12).rxAt .volume s.cfg.initValue.volume
    (settleFor s.cfg s.cfg.initValue.clockConfig .volume)

/-- `Init()` with the line free (R230). -/
theorem initSystem_free {s : State} (hw : s.cfg.wf = true) (hd : s.sel.data = false) :
    initSystem s = (.ok, { s.initialised with sel := ⟨false, false⟩, env := s.env.dropRx 16 }.log (initFrames s)) := by
  obtain ⟨w1, w2, w3, w4⟩ := wf_mode hw
  simp only [initSystem, initList, initLoop]
  rw [commitReg_free (s := s.setReg .mode s.cfg.initValue.mode) (r := .mode) w1 hd]
  simp only
  rw [commitReg_free (by exact w2) (by rfl)]
  simp only
  rw [commitReg_free (by exact w3) (by rfl)]
  simp only
  rw [commitReg_free (by exact w4) (by rfl)]
  simp [State.log, State.setReg, State.reg, settleTime, Reg.index, initFrames, State.initialised]

/-- `Init()` refused by an active data-select (R230). -/
theorem initSystem_conflict {s : State} (hw : s.cfg.wf = true) (hd : s.sel.data = true) :
    initSystem s = (.failArbitration,
      (s.setReg .mode s.cfg.initValue.mode).log [.diag .arbitrationConflict .xcs]) := by
  have : commitReg .mode (s.setReg .mode s.cfg.initValue.mode) = _ := commitReg_conflict (wf_mode hw).1 hd
  simp [initSystem, initList, initLoop, this]

/-- The mirror after `Init()`. -/
theorem reg_initialised (s : State) (r : Reg) : s.initialised.reg r = match r with
    | .mode => s.cfg.initValue.mode
    | .bass => s.cfg.initValue.bass
    | .clockConfig => s.cfg.initValue.clockConfig
    | .volume => s.cfg.initValue.volume
    | r => s.reg r := by
  cases r <;> simp [State.initialised, State.reg, Reg.index]

/-- The poll loop of a soft reset that is sampled ready within its budget (R221). -/
theorem softResetLoop_ready (n : Nat) (ds : List Bool) : ∀ (l : Nat) (s : State), n ≤ l → s.env.ReadyAfter n ds →
    softResetLoop l s = (true, { s with env := s.env.withDreq ds }.log (pollRounds n ++ [Event.poll true])) := by
  induction n with
  | zero =>
    rintro l ⟨x, sel, rst, playing, st, tr, k, cfg, ⟨dreq, rest, rx, c⟩, inbox, hang⟩ - (h | ⟨h, h', h''⟩) <;>
      simp at * <;> subst_vars <;> cases l <;> rfl
  | succ n ih =>
    rintro (_ | l) ⟨x, sel, rst, playing, st, tr, k, cfg, ⟨dreq, rest, rx, c⟩, inbox, hang⟩ hl h
    · omega
    obtain ⟨tl, rfl⟩ : ∃ tl, dreq = false :: tl := by
      rcases h with h | ⟨h, -, -⟩ <;> exact ⟨_, by simpa [List.replicate_succ] using h⟩
    have := ih l (delay 3 (poll ⟨x, sel, rst, playing, st, tr, k, cfg, ⟨false :: tl, rest, rx, c⟩, inbox, hang⟩).2)
      (by omega) (by simpa [poll, List.replicate_succ, Env.dropSample, Env.ReadyAfter] using h)
    simpa [softResetLoop, poll, Env.sample, Env.dropSample, emit, delay, State.log, pollRounds,
      List.replicate_succ, Env.withDreq, Config.pollUs] using this

/-- The poll loop of a soft reset that runs out of its budget (R221). -/
theorem softResetLoop_timeout (l : Nat) : ∀ s : State, (∀ j, j < l + 1 → s.env.sampleAt j = false) →
    softResetLoop l s = (false, { s with env := s.env.withDreq (s.env.dreq.drop (l + 1)) }.log
      (pollRounds l ++ [Event.poll false])) := by
  induction l with
  | zero =>
    rintro ⟨x, sel, rst, playing, st, tr, k, cfg, ⟨dreq, rest, rx, c⟩, inbox, hang⟩ h
    have := h 0 (by omega)
    cases dreq <;> simp [Env.sampleAt] at this <;> subst this <;> rfl
  | succ l ih =>
    rintro ⟨x, sel, rst, playing, st, tr, k, cfg, ⟨dreq, rest, rx, c⟩, inbox, hang⟩ h
    have h0 := h 0 (by omega)
    have := ih (delay 3 (poll ⟨x, sel, rst, playing, st, tr, k, cfg, ⟨dreq, rest, rx, c⟩, inbox, hang⟩).2)
      (fun j hj => by
        have := h (j + 1) (by omega)
        cases dreq <;> simpa [Env.sampleAt, poll, Env.dropSample] using this)
    cases dreq <;> simp [Env.sampleAt] at h0 <;> subst h0 <;>
    simpa [softResetLoop, poll, Env.sample, Env.dropSample, emit, delay, State.log, pollRounds,
      List.replicate_succ, Env.withDreq, Config.pollUs] using this

/-- The state in which the poll loop of a soft reset starts: the reset bit set and MODE committed (R220). -/
def State.resetRequested (s : State) : State :=
  { s.setReg .mode (s.reg .mode ||| modeResetMask s.cfg) with sel := ⟨false, false⟩, env := s.env.dropRx 4 }.log
    (writeFrame s.cfg s.env.rxAt .mode (s.reg .mode ||| modeResetMask s.cfg) (settleTime s .mode))

/-- The commit that requests the chip's own reset (R220). -/
theorem commitReg_resetRequested {s : State} (hw : s.cfg.wf = true) (hd : s.sel.data = false) :
    commitReg .mode (s.setReg .mode (s.reg .mode ||| modeResetMask s.cfg)) = (.ok, s.resetRequested) := by
  rw [commitReg_free (by exact (wf_mode hw).1) (by exact hd)]
  simp [State.resetRequested, settleTime, reg_setReg]

/-- A soft reset that is sampled ready within its budget goes on to `Init()`, whose status it ignores (R222). -/
theorem softReset_ready {s : State} {n : Nat} {ds : List Bool} (hw : s.cfg.wf = true) (hd : s.sel.data = false)
    (h : s.env.ReadyAfter n ds) (hn : n ≤ 333) :
    softReset s = .done .ok (initSystem ({ s.resetRequested with env := (s.env.withDreq ds).dropRx 4 }.log
      (pollRounds n ++ [Event.poll true]))).2 := by
  have := softResetLoop_ready n ds softResetDelays s.resetRequested hn h
  simp [softReset, commitReg_resetRequested hw hd, this]
  rfl

/-- A soft reset that runs out of its budget goes on to a hard reset (R222). -/
theorem softReset_timeout {s : State} (hw : s.cfg.wf = true) (hd : s.sel.data = false)
    (h : ∀ j, j < 334 → s.env.sampleAt j = false) :
    softReset s = (hardReset ({ s.resetRequested with
        env := (s.env.withDreq (s.env.dreq.drop 334)).dropRx 4 }.log (pollRounds 333 ++ [Event.poll false]))).bind
      fun _ s => .done .failSoftResetTimeout s := by
  have := softResetLoop_timeout softResetDelays s.resetRequested h
  simp only [softReset, commitReg_resetRequested hw hd, this]
  rfl

end Sys2Proof.Machine
end

