-- ==== Sys2Proof/Laws/Step.lean ====
section
/-! SUPPORT. What a step can do, and how a run is cut into steps. -/

namespace Sys2Proof.Machine

/-- A step goes once more round a hang, waits for a command, rejects one, or runs the one it decodes. -/
theorem step_cases {s t : State} (h : step s = .next t) :
    (∃ g, s.hang = some g ∧ t = hangStep g s) ∨ (s.hang = none ∧ s.inbox = [] ∧ t = s) ∨
    (∃ c cs, s.hang = none ∧ s.inbox = c :: cs ∧
      (t = rejectCommand { s with inbox := cs } ∨ ∃ i, decode c = .ok i ∧ exec i { s with inbox := cs } = .next t ∧ s.cfg.wf = true)) := by
  unfold step at h
  split at h
  · cases h
  · split at h
    · injection h with h; exact .inl ⟨_, ‹_›, h.symm⟩
    · split at h
      · injection h with h; exact .inr (.inl ⟨‹_›, ‹_›, h.symm⟩)
      · refine .inr (.inr ⟨_, _, ‹_›, ‹_›, ?_⟩)
        unfold runCommand at h
        split at h
        · exact .inr ⟨_, ‹_›, h, by cases hc : s.cfg.wf <;> simp_all⟩
        · injection h with h; exact .inl h.symm

/-- The first step of a run. -/
theorem run_succ {M : Host.Core} {s t : M.State} {n : Nat} (h : M.step s = .next t) :
    M.run (n + 1) s = M.run n t := by
  rw [Host.Core.run, h]

end Sys2Proof.Machine
end

