-- ==== Sys2Proof/Laws/WellFormed.lean ====
section
/-! SUPPORT. The checks on the two rate tables say exactly what R9 asks of the rates. -/

namespace Sys2Proof

theorem allBelow_iff {n : Nat} {p : Nat → Bool} : allBelow n p = true ↔ ∀ i, i < n → p i = true := by
  induction n with
  | zero => simp [allBelow]
  | succ n ih =>
    simp only [allBelow, Bool.and_eq_true, ih]
    constructor
    · rintro ⟨h, h'⟩ i hi
      rcases Nat.lt_succ_iff_lt_or_eq.1 hi with hi | rfl
      · exact h' i hi
      · exact h
    · exact fun h => ⟨h n (by omega), fun i hi => h i (by omega)⟩

/-- A key that a table finds stands in it. -/
theorem mem_of_lookup {α β : Type} [BEq α] [LawfulBEq α] {l : List (α × β)} {k : α} {v : β} (h : l.lookup k = some v) :
    ∃ e ∈ l, e.1 = k := by
  induction l with
  | nil => cases h
  | cons e l ih =>
    obtain ⟨k', v'⟩ := e
    rw [List.lookup_cons] at h
    split at h
    · next hk => exact ⟨_, .head _, by simpa using Eq.symm (by simpa using hk)⟩
    · obtain ⟨e, he, hk⟩ := ih h
      exact ⟨e, .tail _ he, hk⟩

/-- R9 on `XTAL_RATE`. -/
theorem XtalRates.wf_iff (t : XtalRates) : t.wf = true ↔ ∀ f, 1 ≤ t.rate f := by
  simp only [XtalRates.wf, Bool.and_eq_true, Bool.or_eq_true, List.all_eq_true, decide_eq_true_eq, allBelow_iff]
  refine ⟨fun ⟨hl, hb⟩ f => ?_, fun h => ⟨fun e _ => h _, .inr fun f _ => h _⟩⟩
  cases hf : t.listed.lookup f with
  | some v => obtain ⟨e, he, rfl⟩ := mem_of_lookup hf; exact hl e he
  | none =>
    rcases hb with hb | hb
    · simp only [XtalRates.rate, hf, Option.getD_none]; omega
    · simpa using hb f.toNat f.isLt

/-- Some crystal rate is above every listed one. -/
theorem MultRates.exists_above (l : List ((BitVec 3 × BitVec 2 × Nat) × Nat)) :
    ∃ x, 1 ≤ x ∧ ∀ e ∈ l, e.1.2.2 < x := by
  induction l with
  | nil => exact ⟨1, by omega, by simp⟩
  | cons e l ih =>
    obtain ⟨x, hx, h⟩ := ih
    refine ⟨x + e.1.2.2 + 1, by omega, fun e' he' => ?_⟩
    rcases List.mem_cons.1 he' with rfl | he'
    · omega
    · have := h e' he'; omega

/-- R9 on `MULT_RATE`. -/
theorem MultRates.wf_iff (t : MultRates) : t.wf = true ↔ ∀ m a x, 1 ≤ x → 1 ≤ t.rate m a x := by
  simp only [MultRates.wf, Bool.and_eq_true, Bool.or_eq_true, List.all_eq_true, decide_eq_true_eq, allBelow_iff,
    beq_iff_eq]
  constructor
  · rintro ⟨⟨⟨hd, hn⟩, hl⟩, hs⟩ m a x hx
    cases hf : t.listed.lookup (m, a, x) with
    | some v =>
      obtain ⟨e, he, hk⟩ := mem_of_lookup hf
      have := hl e he
      rw [hk] at this
      exact this.resolve_left (by simp; omega)
    | none =>
      have hnm : 1 ≤ t.num[m.toFin] := hn _ (by simp)
      by_cases h : x ≤ (t.den - 1) / t.num[m.toFin]
      · have := hs m.toNat m.isLt (x - 1)
        simp only [BitVec.ofNat_toNat, BitVec.setWidth_eq, Nat.sub_add_cancel hx] at this
        simpa using this (by omega) a.toNat a.isLt
      · simp only [MultRates.rate, hf, Option.getD_none]
        rw [Nat.le_div_iff_mul_le (by omega)] at h ⊢
        omega
  · intro h
    have key : ∀ m : Fin 8, 1 ≤ t.den ∧ 1 ≤ t.num[m] := fun m => by
      obtain ⟨x, hx, hl⟩ := MultRates.exists_above t.listed
      have hr := h (BitVec.ofFin m) 0 x hx
      have hf : t.listed.lookup (BitVec.ofFin m, 0, x) = none := by
        cases hf : t.listed.lookup (BitVec.ofFin m, 0, x) with
        | none => rfl
        | some v =>
          obtain ⟨e, he, hk⟩ := mem_of_lookup hf
          have := hl e he
          rw [hk] at this
          simp at this
      simp only [MultRates.rate, hf, Option.getD_none] at hr
      constructor
      · rcases Nat.eq_zero_or_pos t.den with h0 | h0
        · rw [h0, Nat.div_zero] at hr; omega
        · exact h0
      · rcases Nat.eq_zero_or_pos t.num[m] with h0 | h0
        · rw [h0, Nat.mul_zero, Nat.zero_div] at hr; omega
        · exact h0
    refine ⟨⟨⟨(key 0).1, fun n hn => ?_⟩, fun e _ => ?_⟩, fun m _ x _ a _ => h _ _ _ (by omega)⟩
    · obtain ⟨i, hi, rfl⟩ := List.mem_iff_getElem.1 hn
      simpa using (key ⟨i, by simpa using hi⟩).2
    · rcases Nat.eq_zero_or_pos e.1.2.2 with h0 | h0
      · exact .inl h0
      · exact .inr (h _ _ _ h0)

end Sys2Proof
end

