-- ==== Sys2Proof/Tests/Slice0.lean ====
section
/-! SUPPORT. Tests of the model against the vectors of spec/95_test_vectors.md and spec/30_encoding.md, and a witness
for the hypotheses of every statement. The vectors use the configuration REF, as the spec's own do. -/

namespace Sys2Proof.Tests

open Sys2Proof.Machine

/-! ## Well-formedness: every check refuses an ill-formed term -/

theorem test_wf_xout : Instr.wf (.xout 0xC000#16 3 [1, 2, 3]) = true := by decide
theorem test_wf_xout_short : Instr.wf (.xout 0xC000#16 3 [1, 2]) = false := by decide
theorem test_wf_play_long : Instr.wf (.play 3 [1, 2, 3, 4]) = false := by decide
/-- "REF is well formed" (spec/95_test_vectors.md). -/
theorem test_wf_ref : Cfg.ref.wf = true := by decide
theorem test_wf_xtal_base : Cfg.wf { Cfg.ref with xtal := ⟨[], 0, 4000⟩ } = false := by decide +kernel
theorem test_wf_xtal_listed : Cfg.wf { Cfg.ref with xtal := ⟨[(5, 0)], 1, 0⟩ } = false := by decide
/-- R9 asks for the rates alone: base 0 will do where the listed fields cover what the formula gives 0 for. -/
theorem test_wf_xtal_covered : Cfg.wf { Cfg.ref with xtal := ⟨[(0, 12288000)], 0, 4000⟩ } = true := by decide +kernel
/-- R9 asks nothing of a crystal rate of 0; and a listed rate covers the one crystal rate the formula gives 0 for. -/
theorem test_wf_mult_covered :
    Cfg.wf { Cfg.ref with mult := ⟨[((3, 0, 0), 0)], Cfg.ref.mult.num, 2⟩ } = true ∧
    Cfg.wf { Cfg.ref with mult := ⟨[((0, 0, 1), 1), ((0, 1, 1), 1), ((0, 2, 1), 1), ((0, 3, 1), 1)],
      Cfg.ref.mult.num, 3⟩ } = true := by decide +kernel
theorem test_wf_mult_den : Cfg.wf { Cfg.ref with mult := ⟨[], Cfg.ref.mult.num, 0⟩ } = false := by decide
theorem test_wf_mult_num : Cfg.wf { Cfg.ref with mult := ⟨[], Cfg.ref.mult.num, 3⟩ } = false := by decide
theorem test_wf_mult_listed : Cfg.wf { Cfg.ref with mult := ⟨[((3, 0, 1), 0)], Cfg.ref.mult.num, 2⟩ } = false := by
  decide
theorem test_wf_cycles : Cfg.wf { Cfg.ref with nominalCycles := Cfg.ref.nominalCycles.set 1 4294 } = true ∧
    Cfg.wf { Cfg.ref with nominalCycles := Cfg.ref.nominalCycles.set 1 4295 } = false := by decide
theorem test_wf_init_writable : Cfg.wf { Cfg.ref with writable := Cfg.ref.writable.set 0 false } = false ∧
    Cfg.wf { Cfg.ref with writable := Cfg.ref.writable.set 2 false } = false ∧
    Cfg.wf { Cfg.ref with writable := Cfg.ref.writable.set 3 false } = false ∧
    Cfg.wf { Cfg.ref with writable := Cfg.ref.writable.set 11 false } = false := by decide
theorem test_wf_header : Cfg.wf { Cfg.ref with writable := Cfg.ref.writable.set 8 true } = false ∧
    Cfg.wf { Cfg.ref with writable := Cfg.ref.writable.set 9 true } = false := by decide
theorem test_wf_reset_low : Cfg.wf { Cfg.ref with hardResetLowUs := 999 } = false := by decide
theorem test_wf_range_order : Cfg.wf { Cfg.ref with forbidden := Cfg.ref.forbidden.set 0 ⟨2, 1⟩ } = false := by decide
theorem test_wf_range_top : Cfg.wf { Cfg.ref with forbidden := Cfg.ref.forbidden.set 3 ⟨0, 0x10000⟩ } = true ∧
    Cfg.wf { Cfg.ref with forbidden := Cfg.ref.forbidden.set 3 ⟨0, 0x10001⟩ } = false := by decide

/-! ## Decoding: words written out from R101, R102 and R110 (V-EN, R133) -/

theorem test_decode_selcmd : decode ⟨0x0100000000000001#64, []⟩ = .ok (.selcmd true) := by decide
theorem test_decode_seldata : decode ⟨0x0200000000000000#64, []⟩ = .ok (.seldata false) := by decide
theorem test_decode_qcmd : decode ⟨0x0300000000000000#64, []⟩ = .ok .qcmd := by decide
theorem test_decode_qdata : decode ⟨0x0400000000000000#64, []⟩ = .ok .qdata := by decide
theorem test_decode_qready : decode ⟨0x0500000000000000#64, []⟩ = .ok .qready := by decide
theorem test_decode_lupd : decode ⟨0x100B000000000000#64, []⟩ = .ok (.lupd .volume) := by decide
theorem test_decode_lasgn : decode ⟨0x110B000000002020#64, []⟩ = .ok (.lasgn .volume 0x2020#16) := by decide
theorem test_decode_lset : decode ⟨0x1200000000000004#64, []⟩ = .ok (.lset .mode 0x0004#16) := by decide
theorem test_decode_lclr : decode ⟨0x1300000000000004#64, []⟩ = .ok (.lclr .mode 0x0004#16) := by decide
theorem test_decode_commit : decode ⟨0x1403000000000000#64, []⟩ = .ok (.commit .clockConfig) := by decide
theorem test_decode_rdcache : decode ⟨0x150F000000000000#64, []⟩ = .ok (.rdcache .auxCtrl3) := by decide
theorem test_decode_settle : decode ⟨0x1603000000000000#64, []⟩ = .ok (.settle .clockConfig) := by decide
theorem test_decode_hrst : decode ⟨0x2000000000000000#64, []⟩ = .ok .hrst := by decide
theorem test_decode_srst : decode ⟨0x2100000000000000#64, []⟩ = .ok .srst := by decide
theorem test_decode_init : decode ⟨0x2200000000000000#64, []⟩ = .ok .init := by decide
theorem test_decode_valid : decode ⟨0x3000180000000000#64, []⟩ = .ok (.valid 0x1800#16) := by decide
theorem test_decode_xout : decode ⟨0x3100C00000000002#64, [7, 8]⟩ = .ok (.xout 0xC000#16 2#32 [7, 8]) := by decide
theorem test_decode_xin : decode ⟨0x3200C00000000002#64, []⟩ = .ok (.xin 0xC000#16 2#32) := by decide
theorem test_decode_pad : decode ⟨0x3300FFF000000028#64, []⟩ = .ok (.pad 0xFFF0#16 40#32) := by decide
theorem test_decode_play : decode ⟨0x3400000000000003#64, [1, 2, 3]⟩ = .ok (.play 3#32 [1, 2, 3]) := by decide
/-- V-EN-14 to V-EN-23 and the reserved opcodes at the ends of R113's ranges. -/
theorem test_decode_reserved :
    decode ⟨0x0100000000000002#64, []⟩ = .error .reservedBits ∧
    decode ⟨0x1010000000000000#64, []⟩ = .error .reservedBits ∧
    decode ⟨0x100B000000000001#64, []⟩ = .error .reservedBits ∧
    decode ⟨0x110B000000012020#64, []⟩ = .error .reservedBits ∧
    decode ⟨0x3000180000000001#64, []⟩ = .error .reservedBits ∧
    decode ⟨0x2001000000000000#64, []⟩ = .error .reservedBits ∧
    decode ⟨0x3101C00000000000#64, []⟩ = .error .reservedBits ∧
    decode ⟨0x3400000100000000#64, []⟩ = .error .reservedBits ∧
    decode ⟨0x0600000000000000#64, []⟩ = .error .reservedOpcode ∧
    decode ⟨0x0000000000000000#64, []⟩ = .error .reservedOpcode ∧
    decode ⟨0xFF00000000000000#64, []⟩ = .error .reservedOpcode := by decide
/-- V-EN-24, V-EN-25. -/
theorem test_decode_payload :
    decode ⟨0x3100C00000000003#64, [1, 2]⟩ = .error .payloadLength ∧
    decode ⟨0x0500000000000000#64, [1]⟩ = .error .payloadNotAllowed := by decide
/-- The host's reading of a table row: LEN bytes of payload come with XOUT. -/
theorem test_table_word : decodeTableWord 64 0x3100C00000000002 = some (.xout 0xC000#16 2#32 [0, 0]) ∧
    decodeTableWord 64 0x0600000000000000 = none := by decide
theorem test_encode : (encode (.pad 0xFFF0#16 40#32)).word = 0x3300FFF000000028#64 ∧
    (encode (.lasgn .volume 0x2020#16)).word = 0x110B000000002020#64 := by decide

/-- The assembly lines R130 gives, numbers in decimal. -/
theorem test_asm : Instr.asm (.lupd .volume) = "LUPD VOLUME" ∧ Instr.asm (.xin 0x1800#16 2) = "XIN 6144, 2" ∧
    Instr.asm (.lasgn .volume 0x2020#16) = "LASGN VOLUME, 8224" ∧ Instr.asm (.selcmd true) = "SELCMD 1" := by
  decide +kernel

/-! ## One step: helpers

The start states S0 and S1 of spec/95_test_vectors.md; every received byte is 0 unless a test lists others, and
every DREQ sample is true unless it says otherwise. -/

/-- S0: after block reset. -/
def s0 : State := { State.reset with env := ⟨[], true, List.replicate 150 0, 0⟩ }

/-- S1: after INIT from S0. -/
def s1 : State := { s0 with x := ((s0.x.set 0 0x4800#16).set 3 0x6000#16).set 11 0x2020#16 }

/-- Data-select active (DATA). -/
def asData (s : State) : State := { s with sel := ⟨false, true⟩ }

/-- Command-select active (CMD). -/
def asCmd (s : State) : State := { s with sel := ⟨true, false⟩ }

/-- The chip sends these bytes, then zeros. -/
def sends (bs : List Byte) (s : State) : State := { s with env := { s.env with rx := bs ++ List.replicate 150 0 } }

/-- DREQ is sampled so, then true. -/
def dreq (ds : List Bool) (s : State) : State := { s with env := { s.env with dreq := ds } }

/-- DREQ is false for ever. -/
def notReady (s : State) : State := { s with env := { s.env with dreq := [], dreqRest := false } }

/-- The instruction ends in a next state as `p` says. -/
def ends (i : Instr) (s : State) (p : State → Bool) : Bool :=
  match exec i s with
  | .next t => p t
  | .fault _ => false
  | .refused _ => false

/-- The trace of the command, received bytes told. -/
def traceIs (es : List Event) (t : State) : Bool := t.trace == es

/-- The trace of the command without received bytes and without the false samples. -/
def sentIs (es : List Event) (t : State) : Bool := t.sent == es

/-- OK, no value, no data. -/
def ok : Event := Event.resp 0x00 0 []

/-- `WF(r, v, t)` of spec/95_test_vectors.md, written out. -/
def wf (r hi lo : Byte) (t : Nat) : List Event :=
  [Event.pin .xcs .low, Event.xfer 0x02 0, Event.xfer r 0, Event.xfer hi 0, Event.xfer lo 0, Event.pin .xcs .high, Event.delay t]

/-- `RF(r, hi, lo)` of spec/95_test_vectors.md, written out. -/
def rf (r hi lo : Byte) : List Event :=
  [Event.poll true, Event.pin .xcs .low, Event.xfer 0x03 0, Event.xfer r 0, Event.xfer 0x00 hi, Event.xfer 0x00 lo, Event.pin .xcs .high]

/-- `DF(a, bytes)` of spec/95_test_vectors.md, written out: `a` is the header byte. -/
def df (a : Byte) (bs : List Byte) : List Event :=
  [Event.poll true, Event.pin .xdcs .low, Event.xfer 0x02 0, Event.xfer a 0] ++ bs.map (fun b => Event.xfer b 0) ++ [Event.pin .xdcs .high]

/-! ## One step: the vectors -/

/-- V-CS-2 (a re-assert drives again), V-CS-6. -/
theorem test_selcmd :
    ends (.selcmd true) (asCmd s0) (fun t => traceIs [Event.pin .xcs .low, ok] t && (t.sel == ⟨true, false⟩)) = true ∧
    ends (.selcmd true) (asData s0) (fun t =>
      traceIs [Event.diag .arbitrationConflict .xcs, Event.resp 0x01 0 []] t && (t.sel == ⟨false, true⟩)) = true := by
  decide

/-- V-CS-4, V-CS-3. -/
theorem test_seldata :
    ends (.seldata false) (asCmd s0) (fun t => traceIs [Event.pin .xdcs .high, ok] t && (t.sel == ⟨true, false⟩)) = true ∧
    ends (.seldata true) (asCmd s0) (fun t =>
      traceIs [Event.diag .arbitrationConflict .xdcs, Event.resp 0x01 0 []] t && (t.sel == ⟨true, false⟩)) = true := by
  decide

/-- V-CS-10, V-CS-11. -/
theorem test_queries :
    ends .qcmd (asData s0) (traceIs [ok]) = true ∧ ends .qdata (asData s0) (traceIs [Event.resp 0x00 1 []]) = true := by
  decide

/-- V-CS-12, V-CS-13. -/
theorem test_qready :
    ends .qready (dreq [false] s0) (traceIs [Event.poll false, ok]) = true ∧
    ends .qready s0 (traceIs [Event.poll true, Event.resp 0x00 1 []]) = true := by decide

/-- V-LU-1: the high byte comes first. V-LU-2: two false samples, and a register that is not writable. -/
theorem test_lupd :
    ends (.lupd .volume) (sends [0, 0, 0x12, 0x34] s1) (fun t =>
      traceIs (rf 0x0B 0x12 0x34 ++ [ok]) t && (t.reg .volume == 0x1234#16) && (t.sel == ⟨false, false⟩)) = true ∧
    ends (.lupd .header0) (dreq [false, false, true] (sends [0, 0, 0xAB, 0xCD] s1)) (fun t =>
      traceIs ([Event.poll false, Event.poll false] ++ rf 0x08 0xAB 0xCD ++ [ok]) t && (t.reg .header0 == 0xABCD#16)) = true := by
  decide

/-- V-LU-3; V-LU-5: the command hangs, with no response. -/
theorem test_lupd_refused_and_hung :
    ends (.lupd .volume) (asData s1) (fun t =>
      traceIs [Event.poll true, Event.diag .arbitrationConflict .xcs, Event.resp 0x01 0 []] t && (t.reg .volume == 0x2020#16)) = true ∧
    ends (.lupd .mode) (notReady s1) (fun t =>
      traceIs [Event.poll false] t && (t.hang == some .readyWait) && (t.k == 0)) = true := by
  decide

/-- V-LW-8: a local write to a register that is not writable. V-LW-10: no arbitration. -/
theorem test_lasgn :
    ends (.lasgn .header0 0xBEEF#16) s0 (fun t => traceIs [ok] t && (t.reg .header0 == 0xBEEF#16)) = true ∧
    ends (.lasgn .volume 0x0101#16) (asData s0) (fun t => traceIs [ok] t && (t.reg .volume == 0x0101#16)) = true := by
  decide

/-- V-LW-2; V-LW-7. -/
theorem test_lset_lclr :
    ends (.lset .mode 0x0004#16) s0 (fun t => t.reg .mode == 0x4804#16) = true ∧
    ends (.lclr .bass 0x0230#16) (s0.setReg .bass 0x1234#16) (fun t => t.reg .bass == 0x1004#16) = true := by
  decide

/-- V-LW-9. -/
theorem test_rdcache : ends (.rdcache .volume) s1 (traceIs [Event.resp 0x00 0x2020 []]) = true := by decide

/-- V-CM-1; V-CM-5: CLOCK_CONFIG is timed by the crystal rate of its new value. -/
theorem test_commit :
    ends (.commit .volume) s1 (traceIs (wf 0x0B 0x20 0x20 4 ++ [ok])) = true ∧
    ends (.commit .clockConfig) (s0.setReg .clockConfig 0x6000#16) (traceIs (wf 0x03 0x60 0x00 99 ++ [ok])) = true := by
  decide

/-- V-CM-3: not writable is reported before arbitration. V-CM-4. -/
theorem test_commit_refused :
    ends (.commit .header1) (asData s1) (traceIs [Event.resp 0x04 0 []]) = true ∧
    ends (.commit .volume) (asData s1) (traceIs [Event.diag .arbitrationConflict .xcs, Event.resp 0x01 0 []]) = true := by
  decide

/-- V-ST-0, V-ST-2, V-ST-3 (an exact quotient), V-ST-4, V-ST-5, V-ST-7. -/
theorem test_settle :
    ends (.settle .sampleRate) s0 (traceIs [Event.resp 0x00 38 []]) = true ∧
    ends (.settle .clockConfig) s1 (traceIs [Event.resp 0x00 99 []]) = true ∧
    ends (.settle .clockConfig) (s0.setReg .clockConfig 0x03E8#16) (traceIs [Event.resp 0x00 101 []]) = true ∧
    ends (.settle .sampleRate) (s0.setReg .clockConfig 0xE000#16) (traceIs [Event.resp 0x00 9 []]) = true ∧
    ends (.settle .mode) (s0.setReg .clockConfig 0x07FF#16) (traceIs [Event.resp 0x00 6 []]) = true ∧
    ends (.settle .mode) (s0.setReg .clockConfig 0x6800#16) (traceIs [Event.resp 0x00 4 []]) = true := by decide +kernel

/-- V-VA: both ends of the forbidden ranges. -/
theorem test_valid :
    ([0x0000#16, 0x17FF#16, 0x1880#16, 0x5880#16, 0x8500#16, 0xBFFF#16].all fun a =>
      ends (.valid a) s0 (traceIs [Event.resp 0x00 0 []])) = true ∧
    ([0x1800#16, 0x187F#16, 0x5800#16, 0x587F#16, 0x8040#16, 0x84FF#16, 0xC000#16, 0xFFFF#16].all fun a =>
      ends (.valid a) s0 (traceIs [Event.resp 0x00 1 []])) = true := by decide +kernel

/-- V-HR-1, V-HR-2 (an active line is kept); V-HR-3. -/
theorem test_hrst :
    ends .hrst (dreq [false, false] (asCmd s0)) (fun t => traceIs [Event.pin .xreset .low, Event.delay 1000, Event.pin .xreset .high,
      Event.poll false, Event.delay 3, Event.poll false, Event.delay 3, Event.poll true, ok] t && (t.sel == ⟨true, false⟩)) = true ∧
    ends .hrst (notReady s0) (fun t => traceIs [Event.pin .xreset .low, Event.delay 1000, Event.pin .xreset .high, Event.poll false] t &&
      (t.hang == some .resetPoll)) = true := by decide

/-- V-SR-1: the timeout after 334 false samples. -/
theorem test_srst_timeout : ends .srst (dreq (List.replicate 334 false) s1) (fun t =>
    traceIs (wf 0x00 0x48 0x04 4 ++ (List.replicate 333 [Event.poll false, Event.delay 3]).flatten ++
      [Event.poll false, Event.pin .xreset .low, Event.delay 1000, Event.pin .xreset .high, Event.poll true, Event.resp 0x05 0 []]) t &&
    (t.reg .mode == 0x4804#16)) = true := by decide +kernel

/-- V-SR-3: ready at the 334th sample. -/
theorem test_srst_boundary : ends .srst (dreq (List.replicate 333 false) (s1.setReg .bass 0x00F6#16)) (fun t =>
    traceIs (wf 0x00 0x48 0x04 4 ++ (List.replicate 333 [Event.poll false, Event.delay 3]).flatten ++ [Event.poll true] ++
      wf 0x00 0x48 0x00 4 ++ wf 0x02 0x00 0x00 4 ++ wf 0x03 0x60 0x00 99 ++ wf 0x0B 0x20 0x20 4 ++ [ok]) t &&
    (t.reg .mode == 0x4800#16) && (t.reg .bass == 0#16)) = true := by decide +kernel

/-- V-IN-1; V-IN-2. -/
theorem test_init :
    ends .init s0 (fun t => traceIs (wf 0x00 0x48 0x00 8 ++ wf 0x02 0x00 0x00 8 ++ wf 0x03 0x60 0x00 99 ++
      wf 0x0B 0x20 0x20 4 ++ [ok]) t && (t.x == s1.x)) = true ∧
    ends .init (asData s0) (fun t =>
      traceIs [Event.diag .arbitrationConflict .xcs, Event.resp 0x01 0 []] t && (t.reg .clockConfig == 0#16)) = true := by
  decide +kernel

/-- V-XO-5: two resyncs in 65 bytes; 3 samples, 67 exchanges and 6 pin drives. -/
theorem test_xout :
    let q : List Byte := (List.range 65).map (BitVec.ofNat 8)
    let x : List Byte → List Event := fun l => l.map fun b => Event.xfer b 0
    ends (.xout 0xC000#16 65 q) s1 (fun t => traceIs ([Event.poll true, Event.pin .xdcs .low, Event.xfer 0x02 0, Event.xfer 0x00 0] ++
      x (q.take 32) ++ [Event.pin .xdcs .high, Event.pin .xdcs .low, Event.poll true] ++ x ((q.drop 32).take 32) ++
      [Event.pin .xdcs .high, Event.pin .xdcs .low, Event.poll true, Event.xfer 64 0, Event.pin .xdcs .high, ok]) t &&
      (t.tr.count (Event.poll true) == 3) && (t.tr.countP Event.isXfer == 67) &&
      (t.tr.countP (Event.isPin .xdcs) == 6)) = true := by decide +kernel

/-- V-XO-7 (address before size), V-XO-9 (size before arbitration), V-XO-8, V-XO-10 (header byte). -/
theorem test_xout_order :
    ends (.xout 0x1000#16 0 []) s1 (traceIs [Event.poll true, Event.resp 0x02 0 []]) = true ∧
    ends (.xout 0xC000#16 0 []) (asCmd s1) (traceIs [Event.poll true, Event.resp 0x03 0 []]) = true ∧
    ends (.xout 0xC000#16 1 [9]) (asCmd s1) (traceIs [Event.poll true, Event.diag .arbitrationConflict .xdcs, Event.resp 0x01 0 []]) = true ∧
    ends (.xout 0x8043#16 2 [0xAA, 0xBB]) s1 (traceIs (df 0x43 [0xAA, 0xBB] ++ [ok])) = true := by decide

/-- V-XI-1, V-XI-3. -/
theorem test_xin :
    ends (.xin 0xC000#16 2) (sends [0, 0, 0xAB, 0xCD] s1) (traceIs [Event.poll true, Event.pin .xdcs .low, Event.xfer 0x03 0,
      Event.xfer 0x00 0, Event.xfer 0x00 0xAB, Event.xfer 0x00 0xCD, Event.pin .xdcs .high, Event.resp 0x00 0 [0xAB, 0xCD]]) = true ∧
    ends (.xin 0x0000#16 2) s1 (traceIs [Event.poll true, Event.resp 0x02 0 []]) = true := by decide

/-- V-PD-1: chunks of 32, 32, 32 and 4 bytes. -/
theorem test_pad : ends (.pad 0xC000#16 100) (sends [0, 0, 0, 0, 0, 0, 0x12, 0x5A] s1) (fun t =>
    traceIs (wf 0x07 0x1E 0x06 4 ++ rf 0x06 0x12 0x5A ++ df 0x00 (List.replicate 32 0x5A) ++
      df 0x20 (List.replicate 32 0x5A) ++ df 0x40 (List.replicate 32 0x5A) ++ df 0x60 (List.replicate 4 0x5A) ++
      [ok]) t && (t.reg .wramAddr == 0x1E06#16) && (t.reg .wramData == 0x125A#16)) = true := by decide +kernel

/-- V-PD-4: the second chunk wraps into a forbidden address; V-PD-2; V-PD-5. -/
theorem test_pad_edges :
    ends (.pad 0xFFF0#16 40) s1 (traceIs (wf 0x07 0x1E 0x06 4 ++ rf 0x06 0 0 ++ df 0xF0 (List.replicate 32 0) ++
      [Event.poll true, Event.resp 0x02 0 []])) = true ∧
    ends (.pad 0xC000#16 0) s1 (traceIs (wf 0x07 0x1E 0x06 4 ++ rf 0x06 0 0 ++ [ok])) = true ∧
    ends (.pad 0xC000#16 4) (asData s1) (fun t => traceIs [Event.diag .arbitrationConflict .xcs, Event.resp 0x01 0 []] t &&
      (t.reg .wramAddr == 0x1E06#16)) = true := by decide +kernel

/-- V-PL-1: 68 samples, 2197 exchanges, 138 pin drives. -/
theorem test_play :
    let s := { s1 with env := ⟨[], true, List.replicate 2200 0, 0⟩ }
    ends (.play 3 [0x11, 0x22, 0x33]) s (fun t => sentIs ([Event.poll true, Event.pin .xdcs .low, Event.xfer 0 0, Event.xfer 0 0,
        Event.pin .xdcs .high, Event.play true] ++ df 0x00 [0x11, 0x22, 0x33] ++ wf 0x07 0x1E 0x06 4 ++ rf 0x06 0 0 ++
        (List.range 64).flatMap (fun k => df (BitVec.ofNat 8 (32 * k)) (List.replicate 32 0)) ++
        df 0x00 (List.replicate 4 0) ++ [Event.delay 50000, Event.play false, ok]) t &&
      (t.tr.countP Event.isXfer == 2197) && (t.tr.count (Event.poll true) == 68) &&
      (t.tr.countP (Event.isPin .xdcs) + t.tr.countP (Event.isPin .xcs) == 138) && !t.playing) = true := by
  decide +kernel

/-- V-PL-2, V-PL-3. -/
theorem test_play_failures :
    ends (.play 0 []) s1 (traceIs [Event.poll true, Event.pin .xdcs .low, Event.xfer 0 0, Event.xfer 0 0, Event.pin .xdcs .high, Event.play true,
      Event.poll true, Event.play false, Event.resp 0x03 0 []]) = true ∧
    ends (.play 1 [5]) (asCmd s1) (traceIs [Event.poll true, Event.diag .arbitrationConflict .xdcs, Event.resp 0x01 0 []]) = true := by
  decide

/-- The very next step after `withFetchWord` runs the row's command (P2, command 3: QCMD). -/
theorem test_fetch : (match step (State.withFetchWord (asCmd s1) 64 0x0300000000000000) with
    | .next t => traceIs [Event.resp 0x00 1 []] t && (t.k == 1) && t.inbox.isEmpty
    | .fault _ => false
    | .refused _ => false) = true := by decide

/-- P4, command 5: a reserved word is answered ILLEGAL_COMMAND and changes nothing else. -/
theorem test_illegal : (match step (State.withFetchWord s1 64 0x0600000000000000) with
    | .next t => traceIs [Event.resp 0xFF 0 []] t && (t.x == s1.x)
    | .fault _ => false
    | .refused _ => false) = true := by decide

/-! ## Witnesses: a state and operands that meet the hypotheses of each statement together -/

/-- The host is about to hand over these commands. -/
def withInbox (cs : List Command) (s : State) : State := { s with inbox := cs }

/-- A command hangs. -/
def hanging (h : Hang) (s : State) : State := { notReady s with hang := some h }

/-- A configuration in which WRAM_ADDR is not writable: R9 leaves it open. -/
def cfgNoWramAddr : Cfg := { Cfg.ref with writable := Cfg.ref.writable.set 7 false }

/-- A configuration in which the playback address is forbidden. -/
def cfgNoPlayback : Cfg := { Cfg.ref with playbackAddr := 0x1000#16 }

theorem witness_DecodeEncodeRoundTrip : Instr.wf (.xout 0xFFFF#16 3 [1, 2, 3]) = true := by decide

theorem witness_EncodeDecodeRoundTrip :
    decode ⟨0x3400000000000002#64, [1, 2]⟩ = .ok (.play 2#32 [1, 2]) := by decide

theorem witness_DecodeFollowsTheOneMatchingRow :
    Command.Matches ⟨0x0100000000000001#64, []⟩ .selcmd ∧ ¬ Command.Matches ⟨0x0100000000000002#64, []⟩ .selcmd ∧
    0x0100000000000001#64 &&& Opcode.selcmd.format.mask = Opcode.selcmd.code ++ 0#56 := by decide

/-- Every operand at its largest value. -/
theorem witness_OperandsAreUnsignedFields :
    decode ⟨0x110F00000000FFFF#64, []⟩ = .ok (.lasgn .auxCtrl3 0xFFFF#16) ∧
    decode ⟨0x3300FFFFFFFFFFFF#64, []⟩ = .ok (.pad 0xFFFF#16 0xFFFFFFFF#32) ∧
    decode ⟨0x0200000000000001#64, []⟩ = .ok (.seldata true) ∧
    decode ⟨0x0200000000000000#64, []⟩ = .ok (.seldata false) := by decide

theorem witness_SpecWordsDecode : (List.replicate 65 (0 : Byte)).length = 65 := by decide

/-- Both ends of each reserved range, and the opcodes beside them, which are not reserved. -/
theorem witness_ReservedOpcodesAreRejected :
    ([0x00, 0x06, 0x0F, 0x17, 0x1F, 0x23, 0x2F, 0x35, 0xFF].all fun b =>
      decode ⟨BitVec.ofNat 64 (b * 2 ^ 56), []⟩ == .error .reservedOpcode) = true ∧
    ([0x01, 0x05, 0x10, 0x16, 0x20, 0x22, 0x30, 0x34].all fun b =>
      decode ⟨BitVec.ofNat 64 (b * 2 ^ 56), []⟩ != .error .reservedOpcode) = true := by decide

theorem witness_IllFormedCommandOnlyResponds :
    let c : Command := ⟨0x0100000000000002#64, []⟩
    let s := withInbox [c] s1
    s.cfg.wf = true ∧ s.hang = none ∧ s.inbox = [c] ∧ (Opcode.all.all fun o => ¬ c.Matches o) = true := by
  decide

theorem witness_StepRunsTheDecodedCommand :
    let c : Command := ⟨0x0300000000000000#64, []⟩
    let s := withInbox [c] s1
    s.cfg.wf = true ∧ s.hang = none ∧ s.inbox = [c] ∧ decode c = .ok .qcmd := by decide

theorem witness_NoCommandTraps : s1.cfg.wf = true := by decide

theorem witness_IllFormedConfigurationIsRefused :
    Cfg.wf { Cfg.ref with hardResetLowUs := 999 } = false ∧
    s1.cfg.wf = true ∧ s1.hang = none ∧ s1.inbox = [] := by decide

theorem witness_WellFormedConfigurationMeetsItsBounds : Cfg.ref.wf = true ∧
    Cfg.wf { Cfg.ref with mult := ⟨[], Cfg.ref.mult.num, 3⟩ } = false := by decide

/-- The hypotheses of StepKeepsCoherence, TraceStartsEmptyAndOnlyGrows, CommandIndexCountsResponses and
ConfigurationNeverChanges: a coherent state that takes a step. -/
theorem witness_StepKeepsCoherence :
    (State.resetWith Cfg.ref).Coherent ∧
    step (State.resetWith Cfg.ref) = .next (State.resetWith Cfg.ref) := by
  refine ⟨?_, by rfl⟩
  constructor <;> decide

theorem witness_TraceStartsEmptyAndOnlyGrows : ∃ t, step (withInbox [encode .qready] s1) = .next t := ⟨_, rfl⟩

theorem witness_CommandIndexCountsResponses : ∃ t, step (withInbox [encode (.lasgn .bass 1#16)] s1) = .next t := ⟨_, rfl⟩

theorem witness_ConfigurationNeverChanges :
    (∃ t, exec (.commit .volume) s1 = .next t) ∧ ∃ t, step (withInbox [encode .init] s1) = .next t :=
  ⟨⟨_, rfl⟩, ⟨_, rfl⟩⟩

theorem witness_HangNeverEnds :
    (hanging .readyWait s1).cfg.wf = true ∧ (hanging .readyWait s1).hang = some .readyWait ∧
    (hanging .resetPoll s1).hang = some .resetPoll := by decide

theorem witness_FairEnvironmentEndsEveryCommand : s1.hang = none ∧ s1.env.dreqRest = true := by decide

theorem witness_HangOnlyWhereNeverReady : (notReady s1).hang = none ∧
    ends (.lupd .mode) (notReady s1) (fun t => t.hang != none) = true ∧
    ends .hrst (notReady s1) (fun t => t.hang != none) = true ∧
    ends (.play 1 [5]) (notReady s1) (fun t => t.hang != none) = true := by decide

theorem witness_FirstReadyWaitHangs : (notReady s1).env.NeverReady ∧ (dreq [false, false] (notReady s1)).env.NeverReady := by
  decide

theorem witness_MirrorWriters : ∃ t, exec .init s1 = .next t ∧ Reg.status ∉ Instr.init.mayWrite :=
  ⟨_, rfl, by decide⟩

theorem witness_LineAndFlagWriters : ∃ t, exec .qready s1 = .next t := ⟨_, rfl⟩

/-- An OK response with data, a failure, and an OK response with a value. -/
theorem witness_CommandResponses : s1.cfg.wf = true ∧ s1.hang = none ∧
    ends (.xin 0xC000#16 2) s1 (fun t => t.hang == none) = true ∧
    ends (.commit .header0) s1 (fun t => t.hang == none && t.st.status == 0x04#8) = true ∧
    ends (.rdcache .volume) s1 (fun t => t.hang == none) = true := by decide

theorem witness_ReceivedBytesReachOnlyTheirReaders : Instr.readsBus (.xout 0xC000#16 1 [5]) = false := by decide

/-- Both clauses: the line free and the line taken, after no false sample and after two. -/
theorem witness_LupdReadsOneRegister :
    s1.env.ReadyAfter 0 [] ∧ s1.sel.data = false ∧
    (dreq [false, false, true, false] s1).env.ReadyAfter 2 [false] ∧
    (asData s1).env.ReadyAfter 0 [] ∧ (asData s1).sel.data = true := by decide

theorem witness_CommitWritesOneFrame :
    writable s1.cfg .header0 = false ∧ writable s1.cfg .volume = true ∧ (asData s1).sel.data = true ∧
    s1.sel.data = false := by decide

theorem witness_SettleAnswersTheSettleTime : s1.cfg.wf = true ∧
    (s1.reg .clockConfig).toNat = (3#3).toNat * 2 ^ 13 + (0#2).toNat * 2 ^ 11 + (0#11).toNat := by decide

/-- The bounds of R193 are met at the largest cycle count and the lowest rate. -/
theorem witness_SettleTimeRange :
    let c : Cfg := { Cfg.ref with
      nominalCycles := Cfg.ref.nominalCycles.set 0 4294
      xtal := ⟨[], 1, 0⟩
      mult := ⟨[], #v[1, 1, 1, 1, 1, 1, 1, 1], 1⟩ }
    c.wf = true ∧ settleFor c 0#16 .mode = 4294000001 ∧
    settleFor { c with nominalCycles := c.nominalCycles.set 0 0 } 0#16 .mode = 1 := by decide

theorem witness_HrstPulsesAndPolls :
    s1.env.ReadyAfter 0 [] ∧ (dreq [false, true] s1).env.ReadyAfter 1 [] ∧ (notReady s1).env.NeverReady := by
  decide

theorem witness_InitAssignsAndCommits :
    s1.cfg.wf = true ∧ s1.sel.data = false ∧ (asData s1).sel.data = true := by decide

/-- The last sample within the budget (V-SR-3). -/
theorem witness_SrstReinitialisesWhenReady :
    let s := dreq (List.replicate 333 false) s1
    s.cfg.wf = true ∧ s.sel.data = false ∧ s.env.ReadyAfter 333 [] ∧ 333 ≤ 333 := by decide +kernel

/-- The first sample past the budget (V-SR-1), and no true sample at all. -/
theorem witness_SrstTimesOutIntoHardReset :
    let s := dreq (List.replicate 334 false) s1
    s.cfg.wf = true ∧ s.sel.data = false ∧ (∀ j, j < 334 → s.env.sampleAt j = false) ∧
    (s.env.withDreq (s.env.dreq.drop 334)).ReadyAfter 0 [] ∧
    (∀ j, j < 334 → (notReady s1).env.sampleAt j = false) ∧
    ((notReady s1).env.withDreq ((notReady s1).env.dreq.drop 334)).NeverReady := by decide +kernel

theorem witness_SrstIsRefusedByDataSelect : s1.cfg.wf = true ∧ (asData s1).sel.data = true := by decide

/-- Each of the three failures: a forbidden address, a size of zero, a taken line. -/
theorem witness_TransfersFailClosed :
    s1.env.ReadyAfter 0 [] ∧ validAddr s1.cfg 0x1000#16 = false ∧
    validAddr s1.cfg 0xC000#16 = true ∧ ([] : List Byte).length = 0 ∧
    (asCmd s1).env.ReadyAfter 0 [] ∧ (asCmd s1).sel.cmd = true ∧ (1#32).toNat ≠ 0 := by decide

theorem witness_XoutSendsThePayload :
    validAddr s1.cfg 0xC000#16 = true ∧ s1.sel.cmd = false ∧ s1.env.Grants (1 + (65 - 1) / 32) := by decide

theorem witness_TransferResyncCounts : s1.hang = none ∧
    ends (.xout 0xC000#16 1 [5]) s1 (fun t => t.hang == none && t.st.status == 0x00#8) = true ∧
    ends (.xin 0xC000#16 33) s1 (fun t => t.hang == none && t.st.status == 0x00#8) = true := by decide

theorem witness_XinReturnsTheReceivedBytes :
    validAddr s1.cfg 0xC000#16 = true ∧ 33#32 ≠ 0 ∧ s1.sel.cmd = false ∧
    s1.env.Grants (1 + ((33#32).toNat - 1) / 32) := by decide

/-- V-PD-1. -/
theorem witness_PadSendsTheFillByte :
    writable s1.cfg .wramAddr = true ∧ s1.sel.data = false ∧
    (∀ k, k < 4 → 32 * k < (100#32).toNat → validAddr s1.cfg (0xC000#16 + BitVec.ofNat 16 (32 * k)) = true) ∧
    (∀ k, 32 * k < (100#32).toNat → k < 4) ∧ s1.env.Grants (1 + ((100#32).toNat + 31) / 32) :=
  ⟨by decide, by decide, by decide, by intro k h; simp at h; omega, by decide⟩

/-- V-PD-4. -/
theorem witness_PadStopsAtAForbiddenChunk :
    writable s1.cfg .wramAddr = true ∧ s1.sel.data = false ∧ 32 * 1 < (40#32).toNat ∧
    (∀ k, k < 1 → validAddr s1.cfg (0xFFF0#16 + BitVec.ofNat 16 (32 * k)) = true) ∧
    validAddr s1.cfg (0xFFF0#16 + BitVec.ofNat 16 (32 * 1)) = false ∧ s1.env.Grants (2 + 1) := by decide

theorem witness_PadFetchFailures :
    cfgNoWramAddr.wf = true ∧ writable cfgNoWramAddr .wramAddr = false ∧
    writable s1.cfg .wramAddr = true ∧ (asData s1).sel.data = true := by decide

theorem witness_PlayStreamsThePayload :
    s1.sel.cmd = false ∧ writable s1.cfg .wramAddr = true ∧ validAddr s1.cfg s1.cfg.playbackAddr = true ∧
    (∀ k, k < 65 → validAddr s1.cfg (s1.cfg.padAddr + BitVec.ofNat 16 (32 * k)) = true) ∧
    s1.env.Grants (68 + (3 - 1) / 32) := by decide

/-- V-PL-2 and V-PL-4. -/
theorem witness_PlaySkipsAfterAFailedTransfer :
    s1.sel.cmd = false ∧ s1.env.Grants 2 ∧ cfgNoPlayback.wf = true ∧
    validAddr cfgNoPlayback cfgNoPlayback.playbackAddr = false := by decide

/-- Both clauses: the line taken (V-PL-3), and a playback that ends. -/
theorem witness_PlayOwnsThePlayingFlag :
    (asCmd s1).env.ReadyAfter 0 [] ∧ (asCmd s1).sel.cmd = true ∧ s1.hang = none ∧ s1.sel.cmd = false ∧
    ends (.play 0 []) s1 (fun t => t.hang == none) = true := by decide

theorem witness_WriteThenCommitSendsTheValue :
    let s := withInbox [encode (.lasgn .clockConfig 0x6000#16), encode (.commit .clockConfig)] s0
    s.cfg.wf = true ∧ s.hang = none ∧
    s.inbox = (Pseudo.wrreg .clockConfig 0x6000#16).expand.map encode ++ [] ∧
    writable s.cfg .clockConfig = true ∧ s.sel.data = false := by decide

theorem witness_UpdateThenReadAnswersTheChip :
    let s := withInbox [encode (.lupd .volume), encode (.rdcache .volume)] s1
    s.cfg.wf = true ∧ s.hang = none ∧ s.inbox = (Pseudo.rdreg .volume).expand.map encode ++ [] ∧
    s.sel.data = false ∧ s.env.ReadyAfter 0 [] := by decide

end Sys2Proof.Tests
end

/-! # The proofs for spec/00_scope.md: the configuration, hangs and completion, and the received bytes -/

/-! ## Well-formed configurations (R9) -/

namespace Sys2Proof

open Machine

theorem Reg.index_ofBits (i : Fin 16) : (Reg.ofBits (BitVec.ofFin i)).index = i :=
  BitVec.ofFin.inj (Reg.bits_ofBits (BitVec.ofFin i))

/-- Every index names a register (R40). -/
theorem Reg.forall_index_iff {p : Fin 16 → Prop} : (∀ r : Reg, p r.index) ↔ ∀ i, p i :=
  ⟨fun h i => Reg.index_ofBits i ▸ h (Reg.ofBits (BitVec.ofFin i)), fun h r => h r.index⟩

theorem forall_mem_vector_toList_iff {α : Type} {n : Nat} (v : Vector α n) {p : α → Prop} :
    (∀ a ∈ v.toList, p a) ↔ ∀ i : Fin n, p v[i] := by
  simp only [Vector.mem_toList_iff, Vector.mem_iff_getElem]
  constructor
  · exact fun h i => h _ ⟨i, i.isLt, rfl⟩
  · rintro h _ ⟨i, hi, rfl⟩
    exact h ⟨i, hi⟩

theorem AddrRange.wf_iff (g : AddrRange) : g.wf = true ↔ g.lo ≤ g.hi ∧ g.hi ≤ 0x10000 := by
  simp [AddrRange.wf]

/-- R9 on `NOMINAL_CYCLES`, register by register. -/
theorem nominalCycles_all_iff (c : Cfg) :
    c.nominalCycles.toList.all (fun n => decide (n ≤ 4294)) = true ↔ ∀ r, nominalCycles c r ≤ 4294 := by
  simp only [List.all_eq_true, decide_eq_true_eq, forall_mem_vector_toList_iff]
  exact (Reg.forall_index_iff (p := fun i => c.nominalCycles[i] ≤ 4294)).symm

/-- R9 on `FORBIDDEN`, range by range. -/
theorem forbidden_all_iff (c : Cfg) : c.forbidden.toList.all AddrRange.wf = true ↔
    ∀ i : Fin 4, c.forbidden[i].lo ≤ c.forbidden[i].hi ∧ c.forbidden[i].hi ≤ 0x10000 := by
  simp only [List.all_eq_true, forall_mem_vector_toList_iff, AddrRange.wf_iff]

/-- Settles O11: each conjunct of `Cfg.wf` is the bound of R9 it checks, in the rule's order. -/
theorem wellFormedConfigurationMeetsItsBounds : Obligations.WellFormedConfigurationMeetsItsBounds := by
  intro c
  simp only [Cfg.wf, Bool.and_eq_true, Bool.not_eq_true', decide_eq_true_eq, XtalRates.wf_iff, MultRates.wf_iff,
    nominalCycles_all_iff, forbidden_all_iff, and_assoc]
  rfl

end Sys2Proof

namespace Sys2Proof.Machine

/-! ## The step without a command (R20, R22, R310) -/

theorem step_illFormed {s : State} (h : s.cfg.wf = false) : step s = .refused .illFormedConfiguration := by
  simp [step, h]

theorem step_waiting {s : State} (hw : s.cfg.wf = true) (hh : s.hang = none) (hi : s.inbox = []) :
    step s = .next s := by
  simp [step, hw, hh, hi]

theorem step_hung {s : State} {h : Hang} (hw : s.cfg.wf = true) (hh : s.hang = some h) :
    step s = .next (hangStep h s) := by
  simp [step, hw, hh]

/-- Settles O10: the refusal is the first check of a step, the wait its last case. -/
theorem illFormedConfigurationIsRefused : Obligations.IllFormedConfigurationIsRefused :=
  ⟨fun _ => step_illFormed, fun _ => step_waiting⟩

/-- The events of one more round of a hang (R146, R213). -/
def Hang.round : Hang → List Event
  | .readyWait => [.poll false]
  | .resetPoll => [.delay 3, .poll false]

theorem hangStep_eq_log (h : Hang) (s : State) : hangStep h s = s.log h.round := by
  cases h <;> rfl

/-- A run of a hung command is as many rounds of its loop as it has steps, and nothing else. -/
theorem run_hung (n : Nat) {h : Hang} : ∀ s : State, s.cfg.wf = true → s.hang = some h →
    Host.Core.run Sys2Proof.core n s = .next (s.log (List.replicate n h.round).flatten) := by
  induction n with
  | zero => intro s _ _; rfl
  | succ n ih =>
    intro s hw hh
    have hs : Sys2Proof.core.step s = .next (s.log h.round) := by
      rw [← hangStep_eq_log]; exact step_hung hw hh
    rw [run_succ hs, ih (s.log h.round) hw hh, log_log, List.replicate_succ, List.flatten_cons]

/-- Settles O18, by induction on the number of steps. -/
theorem hangNeverEnds : Obligations.HangNeverEnds := by
  intro n s h hw hh
  rw [run_hung n s hw hh]
  cases h with
  | readyWait => simp [Hang.round]
  | resetPoll => rfl

/-! ## How a command ends (R20, R53, R54, R321) -/

/-- A command answers after its moves, or hangs after its moves, where it may hang and DREQ is never ready again. -/
theorem exec_cases {i : Instr} {s t : State} (h : exec i s = .next t) : ∃ u, Moves (Instr.allowed i) s u ∧
    ((∃ p, t = respond p u) ∨ ∃ g, t = { u with hang := some g } ∧ HungAt g u ∧ i.mayHang = true) := by
  obtain ⟨u, hm, ⟨p, he, -⟩ | ⟨g, he, hg, hi, -⟩⟩ := exec_ends i s <;> rw [h] at he <;> injection he with he
  · exact ⟨u, hm, .inl ⟨p, he⟩⟩
  · exact ⟨u, hm, .inr ⟨g, he, hg, hi⟩⟩

theorem exec_next (i : Instr) (s : State) : ∃ t, exec i s = .next t := by
  obtain ⟨u, -, ⟨p, he, -⟩ | ⟨g, he, -⟩⟩ := exec_ends i s
  · exact ⟨_, he⟩
  · exact ⟨_, he⟩

theorem trace_getLast? (s : State) : s.trace.getLast? = s.tr.head? := by
  simp [State.trace]

theorem trace_respond (p : Reply) (s : State) :
    (respond p s).trace = s.trace ++ [.resp p.status.code p.value p.data] := by
  simp [State.trace]

/-- Settles O19: a hang would leave `dreqRest` false, and no command writes it. -/
theorem fairEnvironmentEndsEveryCommand : Obligations.FairEnvironmentEndsEveryCommand := by
  intro i s hh hrest
  obtain ⟨t, ht⟩ := exec_next i s
  obtain ⟨u, hm, hu⟩ := exec_cases ht
  obtain ⟨-, hk, -, -, hhang, hdreq⟩ := hm.fixed
  rcases hu with ⟨p, rfl⟩ | ⟨g, -, ⟨-, hfalse, -⟩, -⟩
  · obtain ⟨es, htr, -⟩ := hm.events
    refine ⟨_, ht, hhang.trans hh, congrArg (· + 1) hk, hdreq.trans hrest, es, ?_⟩
    rw [trace_getLast?, trace_respond, htr]
    rfl
  · rw [hdreq, hrest] at hfalse
    cases hfalse

/-- Settles O20: the hanging case of `exec_cases`, with the fields no move touches. -/
theorem hangOnlyWhereNeverReady : Obligations.HangOnlyWhereNeverReady := by
  intro i s t hh he ht
  obtain ⟨u, hm, hu⟩ := exec_cases he
  obtain ⟨hst, hk, -, -, hhang, hdreq⟩ := hm.fixed
  rcases hu with ⟨p, rfl⟩ | ⟨g, rfl, ⟨hlisted, hfalse, hlast, -⟩, hi⟩
  · exact absurd (hhang.trans hh) ht
  · exact ⟨hi, hlisted, hfalse, hdreq ▸ hfalse, hk, hst, (trace_getLast? _).trans hlast⟩

/-! ## Runs that differ in the received bytes alone (R15, R122, R124) -/

/-- The state without what only a reader of the bus could tell: the bytes to come, their count, and in the trace the
received bytes (with the false samples, as `Event.sent` has it). -/
def State.unread (s : State) : State :=
  { s with tr := s.tr.filterMap Event.sent, env := { s.env with rx := [], rxCount := 0 } }

/-- Two states that differ in received bytes alone. -/
def State.Alike (s u : State) : Prop := u.unread = s.unread

/-- What can be said of the states without the received bytes holds of both. -/
theorem State.Alike.congr {α : Type} {s u : State} (h : s.Alike u) (f : State → α) : f u.unread = f s.unread := congrArg f h

section Fields

variable {s u : State} (h : s.Alike u)
include h

theorem State.Alike.x : u.x = s.x := h.congr State.x
theorem State.Alike.sel : u.sel = s.sel := h.congr State.sel
theorem State.Alike.rst : u.rst = s.rst := h.congr State.rst
theorem State.Alike.playing : u.playing = s.playing := h.congr State.playing
theorem State.Alike.st : u.st = s.st := h.congr State.st
theorem State.Alike.k : u.k = s.k := h.congr State.k
theorem State.Alike.cfg : u.cfg = s.cfg := h.congr State.cfg
theorem State.Alike.hang : u.hang = s.hang := h.congr State.hang
theorem State.Alike.dreq : u.env.dreq = s.env.dreq := h.congr fun v => v.env.dreq
theorem State.Alike.dreqRest : u.env.dreqRest = s.env.dreqRest := h.congr fun v => v.env.dreqRest
theorem State.Alike.sample : u.env.sample = s.env.sample := h.congr fun v => v.env.sample
theorem State.Alike.reg (r : Reg) : u.reg r = s.reg r := h.congr fun v => v.reg r
theorem State.Alike.settleTime (r : Reg) : settleTime u r = settleTime s r := h.congr fun v => Machine.settleTime v r

theorem State.Alike.sent : u.sent = s.sent := by
  have htr : u.tr.filterMap Event.sent = s.tr.filterMap Event.sent := h.congr State.tr
  rw [State.sent, State.sent, State.trace, State.trace, List.filterMap_reverse, List.filterMap_reverse, htr]

end Fields

/-- Two equal answers, in states that differ in received bytes alone. -/
def AlikePair {α : Type} (p q : α × State) : Prop := ∃ a s u, p = (a, s) ∧ q = (a, u) ∧ s.Alike u

theorem AlikePair.snd {α : Type} {p q : α × State} (h : AlikePair p q) : p.2.Alike q.2 := by
  obtain ⟨a, s, u, rfl, rfl, h⟩ := h
  exact h

/-- Two equal results of a procedure, in states that differ in received bytes alone. -/
inductive Res.Alike {α : Type} : Res α → Res α → Prop
  | done {s u : State} (a : α) : s.Alike u → Res.Alike (.done a s) (.done a u)
  | hung {s u : State} (g : Hang) : s.Alike u → Res.Alike (.hung g s) (.hung g u)

theorem Res.Alike.bind {α β : Type} {r q : Res α} {f : α → State → Res β} (h : r.Alike q)
    (hf : ∀ a (s u : State), s.Alike u → (f a s).Alike (f a u)) : (r.bind f).Alike (q.bind f) := by
  cases h with
  | done a h => exact hf a _ _ h
  | hung g h => exact .hung g h

/-- A command's end keeps the likeness of its runs. -/
theorem Res.Alike.finish {r q : Res Reply} (h : r.Alike q) :
    ∃ t v, finish r = .next t ∧ finish q = .next v ∧ t.Alike v := by
  cases h with
  | done p h => exact ⟨_, _, rfl, rfl, h.congr (respond p)⟩
  | hung g h => exact ⟨_, _, rfl, rfl, h.congr (α := State) fun v => { v with hang := some g }⟩

/-- A command that makes its reply of a procedure's result. -/
theorem Res.Alike.reply {α : Type} {r q : Res α} (h : r.Alike q) (f : α → Reply) :
    ∃ t v, Machine.finish (r.bind fun a s => .done (f a) s) = .next t ∧
      Machine.finish (q.bind fun a s => .done (f a) s) = .next v ∧ t.Alike v :=
  (h.bind (f := fun a s => .done (f a) s) fun a _ _ h => .done (f a) h).finish

/-! ### The shared operations -/

section Operations

variable {s u : State} (h : s.Alike u)
include h

/-- Events that tell the same but for received bytes and false samples. -/
theorem State.Alike.log {es es' : List Event} (he : sentOf es' = sentOf es) : (s.log es).Alike (u.log es') := by
  have hl : ∀ (v : State) (l : List Event),
      (v.log l).unread = { v.unread with tr := (sentOf l).reverse ++ v.unread.tr } := fun v l => by
    simp [State.unread, State.log, sentOf, List.filterMap_reverse]
  rw [State.Alike, hl, hl, he, h]

theorem State.Alike.setReg (r : Reg) (v : Word) : (s.setReg r v).Alike (u.setReg r v) := h.congr fun w => w.setReg r v

theorem State.Alike.delay (us : Nat) : (delay us s).Alike (delay us u) := h.congr (Machine.delay us)

theorem State.Alike.driveReset (l : Level) : (driveReset l s).Alike (driveReset l u) := h.congr (Machine.driveReset l)

theorem State.Alike.withSel (c : Sel) : State.Alike { s with sel := c } { u with sel := c } :=
  h.congr (α := State) fun v => { v with sel := c }

theorem State.Alike.withDreq (ds : List Bool) :
    State.Alike { s with env := s.env.withDreq ds } { u with env := u.env.withDreq ds } :=
  h.congr (α := State) fun v => { v with env := v.env.withDreq ds }

theorem State.Alike.dropRx (n : Nat) : State.Alike { s with env := s.env.dropRx n } { u with env := u.env.dropRx n } := h

theorem State.Alike.send (b : Byte) : (send b s).Alike (send b u) :=
  (h.dropRx 1).log (es := [.xfer b (s.env.rxAt 0)]) (es' := [.xfer b (u.env.rxAt 0)]) rfl

theorem State.Alike.poll : AlikePair (poll s) (poll u) := by
  refine ⟨_, _, _, rfl, by rw [Machine.poll, h.sample], ?_⟩
  have hd : State.Alike { s with env := s.env.dropSample } { u with env := u.env.dropSample } :=
    h.congr (α := State) fun v => { v with env := v.env.dropSample }
  exact hd.log (es := [.poll s.env.sample]) rfl

theorem State.Alike.selectCmd (b : Bool) : AlikePair (selectCmd b s) (selectCmd b u) := by
  unfold Machine.selectCmd
  rw [h.sel]
  split
  · exact ⟨_, _, _, rfl, rfl, h.log (es := [.diag .arbitrationConflict .xcs]) rfl⟩
  · exact ⟨_, _, _, rfl, rfl, (h.withSel _).log (es := [.pin .xcs (levelOf b)]) rfl⟩

theorem State.Alike.selectData (b : Bool) : AlikePair (selectData b s) (selectData b u) := by
  unfold Machine.selectData
  rw [h.sel]
  split
  · exact ⟨_, _, _, rfl, rfl, h.log (es := [.diag .arbitrationConflict .xdcs]) rfl⟩
  · exact ⟨_, _, _, rfl, rfl, (h.withSel _).log (es := [.pin .xdcs (levelOf b)]) rfl⟩

theorem State.Alike.readyAfter {n : Nat} {ds : List Bool} (hr : s.env.ReadyAfter n ds) : u.env.ReadyAfter n ds := by
  rwa [Env.ReadyAfter, h.dreq, h.dreqRest]

theorem State.Alike.neverReady (hn : s.env.NeverReady) : u.env.NeverReady := by
  rwa [Env.NeverReady, h.dreq, h.dreqRest]

theorem State.Alike.waitReady : (waitReady s).Alike (waitReady u) := by
  rcases s.env.ready_or_never with ⟨n, ds, hr⟩ | hn
  · rw [waitReady_readyAfter hr, waitReady_readyAfter (h.readyAfter hr)]
    exact .done _ ((h.withDreq ds).log rfl)
  · rw [waitReady_neverReady hn, waitReady_neverReady (h.neverReady hn), h.dreq]
    exact .hung _ ((h.withDreq []).log rfl)

/-- A commit sends what the mirror holds, whatever it receives (R167). -/
theorem State.Alike.commitReg (r : Reg) : AlikePair (commitReg r s) (commitReg r u) := by
  cases hw : writable s.cfg r with
  | false =>
    rw [commitReg_notWritable hw, commitReg_notWritable (by rwa [h.cfg])]
    exact ⟨_, _, _, rfl, rfl, h⟩
  | true =>
    have hw' : writable u.cfg r = true := by rwa [h.cfg]
    cases hd : s.sel.data with
    | true =>
      rw [commitReg_conflict hw hd, commitReg_conflict hw' (by rwa [h.sel])]
      exact ⟨_, _, _, rfl, rfl, h.log rfl⟩
    | false =>
      rw [commitReg_free hw hd, commitReg_free hw' (by rwa [h.sel])]
      refine ⟨_, _, _, rfl, rfl, ((h.withSel ⟨false, false⟩).dropRx 4).log ?_⟩
      rw [h.cfg, h.reg, h.settleTime]
      rfl

/-! ### Resets and initialization -/

theorem State.Alike.hardReset : (hardReset s).Alike (hardReset u) := by
  have hhigh : State.Alike { s with rst := .high } { u with rst := .high } := h.congr (α := State) fun v => { v with rst := .high }
  rcases s.env.ready_or_never with ⟨n, ds, hr⟩ | hn
  · rw [hardReset_readyAfter hr, hardReset_readyAfter (h.readyAfter hr)]
    exact .done _ ((hhigh.withDreq ds).log (by rw [h.cfg]))
  · rw [hardReset_neverReady hn, hardReset_neverReady (h.neverReady hn)]
    exact .hung _ ((hhigh.withDreq []).log (by rw [h.cfg, h.dreq]))

omit h in
theorem State.Alike.initLoop (l : List (Reg × Word)) :
    ∀ {s u : State}, s.Alike u → AlikePair (initLoop l s) (initLoop l u) := by
  induction l with
  | nil => exact fun h => ⟨_, _, _, rfl, rfl, h⟩
  | cons e l ih =>
    intro s u h
    obtain ⟨st, s', u', hs, hu, h'⟩ := (h.setReg e.1 e.2).commitReg e.1
    simp only [Machine.initLoop, hs, hu]
    cases st with
    | ok => exact ih h'
    | _ => exact ⟨_, _, _, rfl, rfl, h'⟩

theorem State.Alike.initSystem : AlikePair (initSystem s) (initSystem u) := by
  rw [Machine.initSystem, Machine.initSystem, h.cfg]
  exact State.Alike.initLoop _ h

omit h in
theorem State.Alike.softResetLoop (n : Nat) :
    ∀ {s u : State}, s.Alike u → AlikePair (softResetLoop n s) (softResetLoop n u) := by
  induction n with
  | zero => exact fun h => h.poll
  | succ n ih =>
    intro s u h
    obtain ⟨b, s', u', hs, hu, h'⟩ := h.poll
    simp only [Machine.softResetLoop, hs, hu]
    cases b with
    | true => exact ⟨_, _, _, rfl, rfl, h'⟩
    | false => exact ih (h'.delay _)

theorem State.Alike.softReset : (softReset s).Alike (softReset u) := by
  obtain ⟨st, s₁, u₁, hs, hu, h₁⟩ := (h.setReg .mode (s.reg .mode ||| modeResetMask s.cfg)).commitReg .mode
  simp only [Machine.softReset, h.cfg, h.reg, hs, hu]
  cases st with
  | ok =>
    obtain ⟨b, s₂, u₂, hs, hu, h₂⟩ := State.Alike.softResetLoop softResetDelays h₁
    simp only [hs, hu]
    cases b with
    | true => exact .done _ h₂.initSystem.snd
    | false => exact h₂.hardReset.bind fun _ _ _ h => .done _ h
  | _ => exact .done _ h₁

/-! ### Data write frames -/

theorem State.Alike.flowControl (i : Nat) : (flowControl i s).Alike (flowControl i u) := by
  unfold Machine.flowControl
  split
  · exact ((h.selectData false).snd.selectData true).snd.waitReady
  · exact .done _ h

omit h in
theorem State.Alike.writeBytes (p : List Byte) :
    ∀ (i : Nat) {s u : State}, s.Alike u → (writeBytes i p s).Alike (writeBytes i p u) := by
  induction p with
  | nil => exact fun _ _ _ h => .done _ h
  | cons b p ih => exact fun i _ _ h => (h.flowControl i).bind fun _ _ _ h => ih (i + 1) (h.send b)

theorem State.Alike.openFrame (a : Addr) (n : Nat) : (openFrame a n s).Alike (openFrame a n u) := by
  refine h.waitReady.bind fun _ s u h => ?_
  simp only [h.cfg]
  split
  · exact .done _ h
  · split
    · exact .done _ h
    · obtain ⟨b, s', u', hs, hu, h'⟩ := h.selectData true
      simp only [hs, hu]
      cases b <;> exact .done _ h'

theorem State.Alike.transferOut (a : Addr) (p : List Byte) : (transferOut a p s).Alike (transferOut a p u) := by
  refine (h.openFrame a p.length).bind fun st s u h => ?_
  cases st with
  | ok =>
    simp only [send_cfg, h.cfg]
    exact (State.Alike.writeBytes p 0 ((h.send _).send _)).bind fun _ _ _ h => .done _ (h.selectData false).snd
  | _ => exact .done _ h

end Operations

/-- A command that does not read the bus keeps the likeness of its runs. -/
theorem exec_alike {i : Instr} {s u : State} (hi : i.readsBus = false) (h : s.Alike u) :
    ∃ t v, exec i s = .next t ∧ exec i u = .next v ∧ t.Alike v := by
  cases i with
  | selcmd b =>
    obtain ⟨ok, s', u', hs, hu, h'⟩ := h.selectCmd b
    simp only [exec, execSelcmd, hs, hu]
    cases ok <;> exact (Res.Alike.done _ h').finish
  | seldata b =>
    obtain ⟨ok, s', u', hs, hu, h'⟩ := h.selectData b
    simp only [exec, execSeldata, hs, hu]
    cases ok <;> exact (Res.Alike.done _ h').finish
  | qcmd => simp only [exec, execQcmd, h.sel]; exact (Res.Alike.done _ h).finish
  | qdata => simp only [exec, execQdata, h.sel]; exact (Res.Alike.done _ h).finish
  | qready =>
    obtain ⟨b, s', u', hs, hu, h'⟩ := h.poll
    simp only [exec, execQready, hs, hu]
    exact (Res.Alike.done _ h').finish
  | lasgn r v => exact (Res.Alike.done _ (h.setReg r v)).finish
  | lset r m => simp only [exec, execLset, h.reg]; exact (Res.Alike.done _ (h.setReg r _)).finish
  | lclr r m => simp only [exec, execLclr, h.reg]; exact (Res.Alike.done _ (h.setReg r _)).finish
  | commit r =>
    obtain ⟨st, s', u', hs, hu, h'⟩ := h.commitReg r
    simp only [exec, execCommit, hs, hu]
    exact (Res.Alike.done _ h').finish
  | rdcache r => simp only [exec, execRdcache, h.reg]; exact (Res.Alike.done _ h).finish
  | settle r => simp only [exec, execSettle, h.settleTime]; exact (Res.Alike.done _ h).finish
  | hrst => exact h.hardReset.reply fun _ => ⟨.ok, 0, []⟩
  | srst => exact h.softReset.reply fun st => ⟨st, 0, []⟩
  | init =>
    obtain ⟨st, s', u', hs, hu, h'⟩ := h.initSystem
    simp only [exec, execInit, hs, hu]
    exact (Res.Alike.done _ h').finish
  | valid a => simp only [exec, execValid, h.cfg]; exact (Res.Alike.done _ h).finish
  | xout a n p => exact (h.transferOut a p).reply fun st => ⟨st, 0, []⟩
  | lupd _ | xin _ _ | pad _ _ | play _ _ => cases hi

/-- Settles O25: the two runs start alike, and `exec_alike` keeps them so. -/
theorem receivedBytesReachOnlyTheirReaders : Obligations.ReceivedBytesReachOnlyTheirReaders := by
  intro i s rx n hi
  have h : s.Alike { s with env := { s.env with rx := rx, rxCount := n } } := rfl
  obtain ⟨t, v, ht, hv, h'⟩ := exec_alike hi h
  exact ⟨t, v, ht, hv, h'.x, h'.sel, h'.rst, h'.playing, h'.st, h'.k, h'.hang, h'.dreq, h'.sent⟩

end Sys2Proof.Machine

/-! # The proofs for spec/10_state.md: block reset, the coherent states, the trace and who writes what -/

namespace Sys2Proof.Machine

/-! ## The end of a command (R53, R54) -/

/-- `t` is the state `u` of a command's last move after the command has ended with the events `l`: a response, or
none where it hangs. -/
structure State.EndsIn (u t : State) (l : List Event) : Prop where
  x : t.x = u.x
  sel : t.sel = u.sel
  rst : t.rst = u.rst
  playing : t.playing = u.playing
  cfg : t.cfg = u.cfg
  inbox : t.inbox = u.inbox
  k : t.k = u.k + l.countP Event.isResp
  trace : t.trace = u.trace ++ l
  events : l = [] ∨ ∃ c v d, l = [.resp c v d]

theorem respond_endsIn (p : Reply) (u : State) :
    u.EndsIn (respond p u) [.resp p.status.code p.value p.data] :=
  ⟨rfl, rfl, rfl, rfl, rfl, rfl, rfl, trace_respond p u, .inr ⟨_, _, _, rfl⟩⟩

theorem hang_endsIn (g : Hang) (u : State) : u.EndsIn { u with hang := some g } [] :=
  ⟨rfl, rfl, rfl, rfl, rfl, rfl, rfl, (List.append_nil _).symm, .inl rfl⟩

/-- An instruction makes moves it is allowed, and ends. -/
theorem exec_endsIn {i : Instr} {s t : State} (h : exec i s = .next t) :
    ∃ u l, Moves (Instr.allowed i) s u ∧ u.EndsIn t l := by
  obtain ⟨u, hm, ⟨p, rfl⟩ | ⟨g, rfl, -⟩⟩ := exec_cases h
  · exact ⟨u, _, hm, respond_endsIn p u⟩
  · exact ⟨u, _, hm, hang_endsIn g u⟩

/-- The end of a command has no event but a response. -/
theorem State.EndsIn.countP_eq_zero {u t : State} {l : List Event} (h : u.EndsIn t l) {q : Event → Bool}
    (hq : ∀ c v d, q (.resp c v d) = false) : l.countP q = 0 := by
  rcases h.events with rfl | ⟨c, v, d, rfl⟩ <;> simp [hq]

/-! ## The coherent states (R48 to R54, R210, R266, R280) -/

/-- Coherence is what holds inside a command too, and what a command restores before it ends. -/
theorem State.coherent_iff_mid (s : State) : s.Coherent ↔ s.Mid ∧ s.rst = .high ∧
    (s.hang = none → s.playing = false) ∧ s.st.status ∈ responseCodes ∧
    (s.st.status ≠ 0 → s.st.value = 0) ∧ (s.hang ≠ none → s.env.NeverReady) := by
  constructor
  · intro h
    exact ⟨{ h with }, h.rstHigh, h.idle, h.status, h.failure, h.hung⟩
  · rintro ⟨hm, hrst, hidle, hstatus, hfailure, hhung⟩
    exact { hm with rstHigh := hrst, idle := hidle, status := hstatus, failure := hfailure, hung := hhung }

/-- Settles O13: the empty trace says what the lines, the flag and the counts are at reset. -/
theorem blockResetIsCoherent : Obligations.BlockResetIsCoherent := by
  intro c
  rw [State.coherent_iff_mid]
  have hm : (State.resetWith c).Mid :=
    { selExclusive := by simp [State.resetWith], xcs := rfl, xdcs := rfl, xreset := rfl, play := rfl,
      exchanges := rfl, bus := rfl, response := rfl, count := rfl }
  exact ⟨hm, rfl, fun _ => rfl, .head _, fun h => absurd rfl h, fun h => absurd rfl h⟩

theorem Status.code_mem_responseCodes (c : Status) : c.code ∈ responseCodes := by
  cases c <;> decide

theorem Status.ne_ok_of_code_ne_zero {c : Status} (h : c.code ≠ 0) : c ≠ .ok := by
  rintro rfl
  exact h rfl

theorem State.Mid.respond {u : State} (h : u.Mid) (p : Reply) : (respond p u).Mid :=
  { h with
    response := rfl
    exchanges := by simpa using h.exchanges
    bus := by simpa using h.bus
    count := by rw [respond_tr, List.countP_cons_of_pos (isResp_resp ..), h.count, respond_k] }

/-- A command that answers from a state it has put in order leaves a coherent one. -/
theorem State.Mid.coherent_respond {u : State} {p : Reply} (hm : u.Mid) (hrst : u.rst = .high)
    (hplay : u.playing = false) (hhang : u.hang = none) (hp : p.status ≠ .ok → p.value = 0) :
    (Machine.respond p u).Coherent := by
  rw [State.coherent_iff_mid]
  exact ⟨hm.respond p, hrst, fun _ => hplay, p.status.code_mem_responseCodes,
    fun h => hp (Status.ne_ok_of_code_ne_zero h), fun h => absurd hhang h⟩

/-- A hung command stands where DREQ is never sampled true again (R20). -/
theorem HungAt.neverReady {g : Hang} {t : State} (h : HungAt g t) : t.env.NeverReady := by
  obtain ⟨hdreq, hrest, -⟩ := h
  exact ⟨by simp [hdreq], hrest⟩

/-- Every instruction keeps coherence, whether it answers or hangs. -/
theorem exec_keeps_coherence {i : Instr} {s t : State} (hs : s.Coherent) (hh : s.hang = none)
    (he : exec i s = .next t) : t.Coherent := by
  obtain ⟨hmid, hrst, hidle, hstatus, hfailure, -⟩ := s.coherent_iff_mid.1 hs
  obtain ⟨u, hm, hu⟩ := exec_ends i s
  obtain ⟨hst, -, -, -, hhang, -⟩ := hm.fixed
  rcases hu with ⟨p, hp, -, hfail, -, hr, hq⟩ | ⟨g, hg, hung, -, hr⟩
  · obtain rfl : respond p u = t := by rw [he] at hp; injection hp with hp; exact hp.symm
    exact (hm.mid hmid).coherent_respond (hr.elim id fun h => h.trans hrst)
      (hq.elim id fun h => h.trans (hidle hh)) (hhang.trans hh) fun h => (hfail h).1
  · obtain rfl : { u with hang := some g } = t := by rw [he] at hg; injection hg with hg; exact hg.symm
    rw [State.coherent_iff_mid]
    exact ⟨{ hm.mid hmid with }, hr.elim id fun h => h.trans hrst, fun h => (Option.some_ne_none g h).elim,
      hst ▸ hstatus, hst ▸ hfailure, fun _ => hung.neverReady⟩

/-- One more round of a hang drives no line, exchanges no byte and answers nothing. -/
theorem State.Mid.hangStep {s : State} (h : s.Mid) (g : Hang) : (hangStep g s).Mid := by
  rw [hangStep_eq_log]
  cases g <;>
  exact { h with
    exchanges := by simpa [Hang.round] using h.exchanges
    bus := by simpa [Hang.round] using h.bus
    count := by simpa [Hang.round] using h.count }

theorem hangStep_keeps_coherence {s : State} (h : s.Coherent) (g : Hang) : (hangStep g s).Coherent := by
  obtain ⟨hmid, hrest⟩ := s.coherent_iff_mid.1 h
  rw [State.coherent_iff_mid]
  cases g <;> exact ⟨hmid.hangStep _, hrest⟩

/-- Settles O14: by the cases of a step; a command's moves keep `State.Mid`, its end restores the rest. -/
theorem stepKeepsCoherence : Obligations.StepKeepsCoherence := by
  intro s t hs hstep
  rcases step_cases hstep with ⟨g, -, rfl⟩ | ⟨-, -, rfl⟩ | ⟨c, cs, hh, -, hrun⟩
  · exact hangStep_keeps_coherence hs g
  · exact hs
  · have hs' : State.Coherent { s with inbox := cs } := { hs with }
    rcases hrun with rfl | ⟨i, -, he, -⟩
    · obtain ⟨hmid, hrst, hidle, -⟩ := (State.coherent_iff_mid _).1 hs'
      exact hmid.coherent_respond hrst (hidle hh) hh fun _ => rfl
    · exact exec_keeps_coherence hs' hh he

/-! ## The trace and the command index (R54, R55) -/

/-- The events `es` lead from `s` to `t`, and the command index counts the responses among them: one at most, the
last event. -/
def Counted (s t : State) (es : List Event) : Prop :=
  t.trace = s.trace ++ es ∧ t.k = s.k + es.countP Event.isResp ∧ es.dropLast.countP Event.isResp = 0

/-- A command that ends after its moves gives at most one response, as its last event. -/
theorem Moves.counted {A : Allowed} {s u t : State} {l : List Event} (hm : Moves A s u) (ht : u.EndsIn t l) :
    ∃ es, Counted s t es := by
  obtain ⟨es, htr, hresp, -⟩ := hm.events
  obtain ⟨-, hk, -⟩ := hm.fixed
  refine ⟨es ++ l, by rw [ht.trace, htr, List.append_assoc], ?_, ?_⟩
  · rw [ht.k, hk, List.countP_append, hresp, Nat.zero_add]
  · rcases ht.events with rfl | ⟨c, v, d, rfl⟩
    · rw [List.append_nil]
      exact Nat.le_zero.1 (hresp ▸ (List.dropLast_sublist es).countP_le)
    · rwa [List.dropLast_concat]

/-- One more round of a hang gives no response. -/
theorem hangStep_counted (g : Hang) (s : State) : Counted s (hangStep g s) g.round := by
  rw [hangStep_eq_log]
  cases g <;> exact ⟨trace_log .., rfl, rfl⟩

theorem step_counted {s t : State} (h : step s = .next t) : ∃ es, Counted s t es := by
  rcases step_cases h with ⟨g, -, rfl⟩ | ⟨-, -, rfl⟩ | ⟨c, cs, -, -, rfl | ⟨i, -, he, -⟩⟩
  · exact ⟨_, hangStep_counted g s⟩
  · exact ⟨[], (List.append_nil _).symm, rfl, rfl⟩
  · -- a rejected command makes no move, so any allowance will do
    exact (Moves.refl (A := Instr.allowed .qcmd) (s := { s with inbox := cs })).counted (respond_endsIn _ _)
  · obtain ⟨u, l, hm, ht⟩ := exec_endsIn he
    exact hm.counted ht

/-- Settles O16: `step_counted`, written out. -/
theorem commandIndexCountsResponses : Obligations.CommandIndexCountsResponses :=
  fun _ _ => step_counted

/-- Settles O15: the events `step_counted` gives are the ones appended. -/
theorem traceStartsEmptyAndOnlyGrows : Obligations.TraceStartsEmptyAndOnlyGrows := by
  refine ⟨fun _ => rfl, fun s t h => ?_⟩
  obtain ⟨es, htr, -⟩ := step_counted h
  exact ⟨es, htr⟩

/-! ## The configuration and the waiting commands (R7, R44) -/

theorem exec_cfg_inbox {i : Instr} {s t : State} (h : exec i s = .next t) : t.cfg = s.cfg ∧ t.inbox = s.inbox := by
  obtain ⟨u, l, hm, ht⟩ := exec_endsIn h
  obtain ⟨-, -, hcfg, hinbox, -⟩ := hm.fixed
  exact ⟨ht.cfg.trans hcfg, ht.inbox.trans hinbox⟩

/-- Settles O17: no move writes either field, and the rest of a step leaves the configuration. -/
theorem configurationNeverChanges : Obligations.ConfigurationNeverChanges := by
  refine ⟨fun i s t => exec_cfg_inbox, fun s t h => ?_⟩
  rcases step_cases h with ⟨g, -, rfl⟩ | ⟨-, -, rfl⟩ | ⟨c, cs, -, -, rfl | ⟨i, -, he, -⟩⟩
  · rw [hangStep_eq_log, log_cfg]
  · rfl
  · rfl
  · exact (exec_cfg_inbox he).1

/-! ## Who writes what (R42, R50, R52, R162, R212, R265, R266) -/

/-- Settles O22: an instruction's moves write only the entries it is allowed, and its end writes none. -/
theorem mirrorWriters : Obligations.MirrorWriters := by
  intro i s t r he hr
  obtain ⟨u, l, hm, ht⟩ := exec_endsIn he
  exact (reg_congr ht.x r).trans (hm.reg hr)

theorem Instr.allowed_reset {i : Instr} (hh : i ≠ .hrst) (hs : i ≠ .srst) : (Instr.allowed i).reset = false := by
  cases i with
  | hrst => exact absurd rfl hh
  | srst => exact absurd rfl hs
  | _ => rfl

theorem Instr.allowed_play {i : Instr} (h : ∀ n p, i ≠ .play n p) : (Instr.allowed i).play = false := by
  cases i with
  | play n p => exact absurd rfl (h n p)
  | _ => rfl

/-- Settles O23: the lines and the flag change only by moves the instruction is allowed. -/
theorem lineAndFlagWriters : Obligations.LineAndFlagWriters := by
  intro i s t he
  obtain ⟨u, l, hm, ht⟩ := exec_endsIn he
  obtain ⟨es, htr, -, hreset, hplay, hlines⟩ := hm.events
  have hcount : ∀ q : Event → Bool, (∀ c v d, q (.resp c v d) = false) → es.countP q = 0 →
      (es ++ l).countP q = 0 := fun q hq h => by
    rw [List.countP_append, h, ht.countP_eq_zero hq]
  refine ⟨es ++ l, by rw [ht.trace, htr, List.append_assoc], fun hi => ?_, fun hi => ?_, fun hi => ?_⟩
  · obtain ⟨hrst, hpin⟩ := hreset (Instr.allowed_reset hi.1 hi.2)
    exact ⟨ht.rst.trans hrst, hcount _ (isPin_resp _) hpin⟩
  · obtain ⟨hflag, hwrite⟩ := hplay (Instr.allowed_play hi)
    exact ⟨ht.playing.trans hflag, hcount _ isPlay_resp hwrite⟩
  · have hA : (Instr.allowed i).lines = false := by
      cases i with
      | selcmd _ | seldata _ | lupd _ | commit _ | srst | init | xout _ _ _ | xin _ _ | pad _ _ | play _ _ =>
        exact hi.elim
      | _ => rfl
    obtain ⟨hsel, hxcs, hxdcs, hxfer⟩ := hlines hA
    exact ⟨ht.sel.trans hsel, hcount _ (isPin_resp _) hxcs, hcount _ (isPin_resp _) hxdcs, hcount _ isXfer_resp hxfer⟩

/-! ## The step of a command, and block reset (R54, R60, R100) -/

theorem step_command {s : State} {c : Command} {cs : List Command} (hw : s.cfg.wf = true) (hh : s.hang = none)
    (hi : s.inbox = c :: cs) : step s = runCommand c { s with inbox := cs } := by
  simp [step, hw, hh, hi]

theorem runCommand_decoded {c : Command} {i : Instr} (h : decode c = .ok i) (s : State) :
    runCommand c s = exec i s := by
  simp [runCommand, h]

/-- Settles O8: the last case of a step, where the command decodes. -/
theorem stepRunsTheDecodedCommand : Obligations.StepRunsTheDecodedCommand := by
  intro s c cs i hw hh hi hd
  rw [step_command hw hh hi, runCommand_decoded hd]

/-- Settles O12: each value is the one `State.resetWith` writes out. -/
theorem blockResetValues : Obligations.BlockResetValues :=
  fun _ => ⟨fun _ => rfl, rfl, rfl, rfl, rfl, rfl, rfl, rfl, rfl⟩

end Sys2Proof.Machine

/-! # The proofs for spec/20_memory.md: the mirror and the chip, over two commands -/

namespace Sys2Proof

/-- An instruction whose payload is as its row asks decodes from its own encoding (R101 to R103, R111). -/
theorem decode_encode_of_rowFields {i : Instr} (h : Laws.RowFields.Statement i)
    (hp : checkPayload i.opcode i.word i.payload = .ok ()) : decode (encode i) = .ok i := by
  obtain ⟨hopc, hzero, hops⟩ := h
  have hd : decode (encode i) = .ok (operands i.opcode i.word i.payload) := decode_of_row hopc hzero hp
  rwa [hops] at hd

end Sys2Proof

namespace Sys2Proof.Machine

/-! ## Two commands in a row (R54, R132) -/

/-- A run over two encoded commands executes the first, and the second in the state it leaves. -/
theorem run_encoded_pair {s u t : State} {i j : Instr} {cs : List Command} (hw : s.cfg.wf = true)
    (hh : s.hang = none) (hi : s.inbox = [i, j].map encode ++ cs)
    (hdi : decode (encode i) = .ok i) (hdj : decode (encode j) = .ok j)
    (hu : exec i { s with inbox := encode j :: cs } = .next u) (huh : u.hang = none)
    (ht : exec j { u with inbox := cs } = .next t) : Host.Core.run Sys2Proof.core 2 s = .next t := by
  obtain ⟨hcfg, hinbox⟩ := exec_cfg_inbox hu
  have hfirst : step s = .next u := (stepRunsTheDecodedCommand s _ _ i hw hh hi hdi).trans hu
  have hsecond : step u = .next t :=
    (stepRunsTheDecodedCommand u _ cs j (hcfg ▸ hw) huh hinbox hdj).trans ht
  calc Host.Core.run Sys2Proof.core 2 s
    _ = Host.Core.run Sys2Proof.core 1 u := run_succ hfirst
    _ = Host.Core.run Sys2Proof.core 0 t := run_succ hsecond
    _ = .next t := rfl

/-! ## The commands of the mirror that answer OK (R160, R163, R167, R170) -/

theorem exec_lasgn (r : Reg) (v : Word) (s : State) :
    exec (.lasgn r v) s = .next ((s.setReg r v).replied 0x00#8 0 [] []) :=
  congrArg Host.Outcome.next (respond_eq_replied ⟨.ok, 0, []⟩ (s.setReg r v))

theorem exec_rdcache (r : Reg) (s : State) :
    exec (.rdcache r) s = .next (s.replied 0x00#8 ((s.reg r).setWidth 32) [] []) :=
  congrArg Host.Outcome.next (respond_eq_replied ⟨.ok, (s.reg r).setWidth 32, []⟩ s)

theorem exec_commit_free {r : Reg} {s : State} (hw : writable s.cfg r = true) (hd : s.sel.data = false) :
    exec (.commit r) s = .next ({ s with sel := ⟨false, false⟩, env := s.env.dropRx 4 }.replied 0x00#8 0 []
      (writeFrame s.cfg s.env.rxAt r (s.reg r) (settleTime s r))) := by
  rw [exec, execCommit, commitReg_free hw hd]
  exact congrArg Host.Outcome.next (respond_log ..)

theorem exec_lupd_free {r : Reg} {s : State} {n : Nat} {ds : List Bool} (h : s.env.ReadyAfter n ds)
    (hd : s.sel.data = false) :
    exec (.lupd r) s = .next (({ s with sel := ⟨false, false⟩, env := (s.env.withDreq ds).dropRx 4 }.setReg r
      (s.env.rxAt 2 ++ s.env.rxAt 3)).replied 0x00#8 0 [] (waitEvents n ++ readFrame s.cfg s.env.rxAt r)) := by
  rw [exec, execLupd, readReg_free h hd]
  exact congrArg Host.Outcome.next (respond_log ..)

/-- The settle time after a local write: a write of CLOCK_CONFIG times its own commit (R190, R192). -/
theorem settleTime_setReg_same (s : State) (r : Reg) (v : Word) : settleTime (s.setReg r v) r =
    settleFor s.cfg (if r = .clockConfig then v else s.reg .clockConfig) r := by
  rw [settleTime, reg_setReg, setReg_cfg]
  simp only [eq_comm]

/-! ## A write reaches the chip, a read comes from it (R79, R83) -/

/-- `WRREG` (R132): the commit reads the entry and the clock value from the mirror the local write has left. -/
theorem run_wrreg {s : State} {r : Reg} {v : Word} {cs : List Command} (hw : s.cfg.wf = true) (hh : s.hang = none)
    (hi : s.inbox = (Pseudo.wrreg r v).expand.map encode ++ cs) (hwr : writable s.cfg r = true)
    (hd : s.sel.data = false) : Host.Core.run Sys2Proof.core 2 s = .next
      ((({ s with sel := ⟨false, false⟩, env := s.env.dropRx 4, inbox := cs }.setReg r v).replied 0x00#8 0 [] []).replied
        0x00#8 0 [] (writeFrame s.cfg s.env.rxAt r ((s.setReg r v).reg r) (settleTime (s.setReg r v) r))) :=
  run_encoded_pair hw hh hi (decode_encode_of_rowFields (Laws.RowFields.lasgn r v) rfl)
    (decode_encode_of_rowFields (Laws.RowFields.commit r) rfl) (exec_lasgn r v _) hh (exec_commit_free hwr hd)

/-- Settles O52: in the state `run_wrreg` gives, the entry read is the value written (R79). -/
theorem writeThenCommitSendsTheValue : Obligations.WriteThenCommitSendsTheValue := by
  intro s r v cs hw hh hi hwr hd
  refine ⟨_, run_wrreg hw hh hi hwr hd, reg_setReg_same s r v, fun _ hr => reg_setReg_other (s := s) hr, rfl, rfl, ?_⟩
  rw [trace_replied, trace_replied, reg_setReg_same, settleTime_setReg_same, ← List.append_assoc]
  rfl

/-- `RDREG` (R132): the update fills the entry with the two bytes received last, and the read answers the entry. -/
theorem run_rdreg {s : State} {r : Reg} {cs : List Command} {n : Nat} {ds : List Bool} (hw : s.cfg.wf = true)
    (hh : s.hang = none) (hi : s.inbox = (Pseudo.rdreg r).expand.map encode ++ cs) (hd : s.sel.data = false)
    (hr : s.env.ReadyAfter n ds) : Host.Core.run Sys2Proof.core 2 s = .next
      ((({ s with sel := ⟨false, false⟩, env := (s.env.withDreq ds).dropRx 4, inbox := cs }.setReg r
          (s.env.rxAt 2 ++ s.env.rxAt 3)).replied 0x00#8 0 [] (waitEvents n ++ readFrame s.cfg s.env.rxAt r)).replied
        0x00#8 (((s.setReg r (s.env.rxAt 2 ++ s.env.rxAt 3)).reg r).setWidth 32) [] []) :=
  run_encoded_pair hw hh hi (decode_encode_of_rowFields (Laws.RowFields.lupd r) rfl)
    (decode_encode_of_rowFields (Laws.RowFields.rdcache r) rfl) (exec_lupd_free hr hd) hh (exec_rdcache r _)

/-- Settles O53: in the state `run_rdreg` gives, the entry read is the two bytes, the high one first (R70). -/
theorem updateThenReadAnswersTheChip : Obligations.UpdateThenReadAnswersTheChip := by
  intro s r cs n ds hw hh hi hd hr
  refine ⟨_, run_rdreg hw hh hi hd hr, rfl, ?_, rfl, rfl, fun _ hne => reg_setReg_other (s := s) hne⟩
  rw [reg_setReg_same]
  exact (BitVec.toNat_setWidth_of_le (by decide)).trans (toNat_append_bytes ..)

end Sys2Proof.Machine

/-! # The proofs for spec/30_encoding.md: the command word, and the commands that stream -/

/-! ## The rows of the opcode table (R102, R110, R111, R112) -/

namespace Sys2Proof

@[simp] theorem opcode_operands (o : Opcode) (w : CommandWord) (p : List Byte) : (operands o w p).opcode = o := by
  cases o <;> rfl

theorem Opcode.code_injective {o o' : Opcode} (h : o.code = o'.code) : o = o' :=
  Option.some.inj (by rw [← ofCode_code o, ← ofCode_code o', h])

/-- The payload check passes exactly on the payloads R111 asks for. -/
theorem checkPayload_iff (o : Opcode) (w : CommandWord) (p : List Byte) : checkPayload o w p = .ok () ↔
    if o.takesPayload then p.length = w.toNat % 2 ^ 32 else p = [] := by
  rw [checkPayload, lenField_toNat]
  split
  · split <;> simpa
  · cases p <;> simp

/-- A mask covers the opcode and the bits its format reserves, and no other (R102, R114). -/
theorem Format.getLsbD_mask (f : Format) : ∀ i : Fin 64, f.mask.getLsbD i =
    (decide (56 ≤ i.val) || f.zeroFields.any fun z => decide (z.1 ≤ i.val) && decide (i.val < z.1 + z.2)) := by
  cases f <;> decide

/-- The bits a format reserves lie below the opcode (R102). -/
theorem Format.zeroFields_below (f : Format) : ∀ z ∈ f.zeroFields, z.1 + z.2 ≤ 56 := by
  cases f <;> decide

theorem opcField_eq_iff (w : CommandWord) (b : Byte) :
    opcField w = b ↔ ∀ i, 56 ≤ i → i < 64 → w.getLsbD i = b.getLsbD (i - 56) := by
  simp only [opcField, BitVec.eq_of_getLsbD_eq_iff, BitVec.getLsbD_extractLsb']
  constructor
  · intro h i hi hi'
    simpa [show i - 56 < 8 by omega, show 56 + (i - 56) = i by omega] using h (i - 56) (by omega)
  · intro h i hi
    simpa [hi] using h (56 + i) (by omega) (by omega)

theorem reservedBitsZero_iff_getLsbD (f : Format) (w : CommandWord) : reservedBitsZero f w = true ↔
    ∀ z ∈ f.zeroFields, ∀ i, z.1 ≤ i → i < z.1 + z.2 → w.getLsbD i = false := by
  simp only [reservedBitsZero, List.all_eq_true, beq_iff_eq, BitVec.eq_of_getLsbD_eq_iff,
    BitVec.getLsbD_extractLsb']
  refine forall₂_congr fun z _ => ⟨fun h i hi hi' => ?_, fun h i hi => ?_⟩
  · simpa [show i - z.1 < z.2 by omega, show z.1 + (i - z.1) = i by omega] using h (i - z.1) (by omega)
  · simpa [hi] using h (z.1 + i) (by omega) (by omega)

/-- A masked word agrees with a row at bit `i`: an opcode bit is the row's, a reserved bit is 0, another is not asked. -/
theorem getLsbD_and_mask_iff (f : Format) (w : CommandWord) (b : Byte) {i : Nat} (hi : i < 64) :
    (w &&& f.mask).getLsbD i = (b ++ 0#56).getLsbD i ↔ (56 ≤ i → w.getLsbD i = b.getLsbD (i - 56)) ∧
      ∀ z ∈ f.zeroFields, z.1 ≤ i → i < z.1 + z.2 → w.getLsbD i = false := by
  rw [BitVec.getLsbD_and, f.getLsbD_mask ⟨i, hi⟩, BitVec.getLsbD_append]
  by_cases h : 56 ≤ i
  · have hbelow : ∀ z ∈ f.zeroFields, z.1 ≤ i → i < z.1 + z.2 → w.getLsbD i = false := fun z hz _ hi' => by
      have := f.zeroFields_below z hz
      omega
    rw [and_iff_left hbelow]
    simp [h, h.not_gt]
  · cases w.getLsbD i <;> simp [h, Nat.lt_of_not_le h]

/-- A word matches a row under the row's mask exactly when it has the row's opcode and no reserved bit (R112, R114). -/
theorem and_mask_eq_iff (f : Format) (w : CommandWord) (b : Byte) :
    w &&& f.mask = b ++ 0#56 ↔ opcField w = b ∧ reservedBitsZero f w = true := by
  rw [opcField_eq_iff, reservedBitsZero_iff_getLsbD, BitVec.eq_of_getLsbD_eq_iff]
  constructor
  · intro h
    refine ⟨fun i hi hi' => ((getLsbD_and_mask_iff f w b hi').1 (h i hi')).1 hi, fun z hz i hi hi' => ?_⟩
    have hlt : i < 64 := by
      have := f.zeroFields_below z hz
      omega
    exact ((getLsbD_and_mask_iff f w b hlt).1 (h i hlt)).2 z hz hi hi'
  · rintro ⟨hopc, hzero⟩ i hi
    exact (getLsbD_and_mask_iff f w b hi).2 ⟨fun hi' => hopc i hi' hi, fun z hz => hzero z hz i⟩

/-- R112 in the decoder's terms: the opcode byte, the reserved fields and the payload check. -/
theorem Command.matches_iff (c : Command) (o : Opcode) : c.Matches o ↔
    opcField c.word = o.code ∧ reservedBitsZero o.format c.word = true ∧
      checkPayload o c.word c.payload = .ok () := by
  rw [Command.Matches, and_mask_eq_iff, checkPayload_iff, and_assoc]

/-- A command decodes exactly to the instruction of the row it matches. -/
theorem decode_eq_ok_iff (c : Command) (i : Instr) :
    decode c = .ok i ↔ ∃ o, c.Matches o ∧ operands o c.word c.payload = i := by
  simp only [Command.matches_iff]
  constructor
  · intro h
    obtain ⟨o, hopc, hzero, hpay, rfl⟩ := decode_cases h
    exact ⟨o, ⟨hopc.symm, hzero, hpay⟩, rfl⟩
  · rintro ⟨o, ⟨hopc, hzero, hpay⟩, rfl⟩
    exact decode_of_row hopc hzero hpay

/-- Settles O3: the row a command decodes by is the one it matches, and two rows' opcode bytes differ. -/
theorem decodeFollowsTheOneMatchingRow : Obligations.DecodeFollowsTheOneMatchingRow := by
  refine ⟨fun c o => ⟨fun h => ⟨_, (decode_eq_ok_iff c _).2 ⟨o, h, rfl⟩, opcode_operands ..⟩, ?_⟩, ?_⟩
  · rintro ⟨i, hd, rfl⟩
    obtain ⟨o, hm, rfl⟩ := (decode_eq_ok_iff c i).1 hd
    rwa [opcode_operands]
  · intro w o o' h h'
    rw [and_mask_eq_iff] at h h'
    exact Opcode.code_injective (h.1.symm.trans h'.1)

/-! ## The encoder and the decoder (R101, R102, R103, R111) -/

/-- The word of every instruction has its row's opcode and no reserved bit, and gives the operands back. -/
theorem rowFields : ∀ i : Instr, Laws.RowFields.Statement i
  | .selcmd b => Laws.RowFields.selcmd b
  | .seldata b => Laws.RowFields.seldata b
  | .qcmd => Laws.RowFields.qcmd
  | .qdata => Laws.RowFields.qdata
  | .qready => Laws.RowFields.qready
  | .lupd r => Laws.RowFields.lupd r
  | .lasgn r v => Laws.RowFields.lasgn r v
  | .lset r m => Laws.RowFields.lset r m
  | .lclr r m => Laws.RowFields.lclr r m
  | .commit r => Laws.RowFields.commit r
  | .rdcache r => Laws.RowFields.rdcache r
  | .settle r => Laws.RowFields.settle r
  | .hrst => Laws.RowFields.hrst
  | .srst => Laws.RowFields.srst
  | .init => Laws.RowFields.init
  | .valid a => Laws.RowFields.valid a
  | .xout a n p => Laws.RowFields.xout a n p
  | .xin a n => Laws.RowFields.xin a n
  | .pad a n => Laws.RowFields.pad a n
  | .play n p => Laws.RowFields.play n p

/-- A well-formed instruction is one whose encoding passes the payload check (R111). -/
theorem checkPayload_encode_iff (i : Instr) : checkPayload i.opcode i.word i.payload = .ok () ↔ i.wf = true := by
  rw [checkPayload_iff, ← lenField_toNat]
  cases i with
  | xout a n p | play n p =>
    simp [Instr.word, lenField_layout, Instr.opcode, Opcode.takesPayload, Instr.payload, Instr.wf]
  | _ => simp [Instr.opcode, Opcode.takesPayload, Instr.payload, Instr.wf]

/-- Settles O1: the encoding has the row's fields, and its payload passes the check because the instruction is well
formed. -/
theorem decodeEncodeRoundTrip : Obligations.DecodeEncodeRoundTrip := fun i hwf =>
  decode_encode_of_rowFields (rowFields i) ((checkPayload_encode_iff i).2 hwf)

theorem actField_toNat (w : CommandWord) : (actField w).toNat = w.toNat % 2 := by
  have h := actField_iff w
  cases hb : actField w <;> simp_all

/-- The word with opcode `o` whose operand fields are those of `w` that the format has (R102). -/
def Format.keep (f : Format) (o : Byte) (w : CommandWord) : CommandWord :=
  match f with
  | .n => layout o 0 0 0
  | .s => layout o 0 0 (lowAct (actField w))
  | .r => layout o (regField w) 0 0
  | .rv => layout o (regField w) 0 (lowVal (valField w))
  | .a => layout o 0 (addrField w) 0
  | .al => layout o 0 (addrField w) (lenField w)
  | .l => layout o 0 0 (lenField w)

/-- The encoder writes a row's operands back into the fields the decoder read them from. -/
theorem word_operands (o : Opcode) (w : CommandWord) (p : List Byte) :
    (operands o w p).word = o.format.keep o.code w := by
  cases o with
  | lupd | lasgn | lset | lclr | commit | rdcache | settle =>
    exact congrArg (layout _ · 0 _) (Machine.Reg.bits_ofBits (regField w))
  | _ => rfl

/-- Outside the opcode and its operand fields a format has reserved bits only (R101, R102). -/
theorem Format.keep_eq_self {f : Format} {w : CommandWord} (h : reservedBitsZero f w = true) :
    f.keep (opcField w) w = w := by
  have hw := w.isLt
  apply BitVec.eq_of_toNat_eq
  rw [reservedBitsZero_iff] at h
  cases f <;> simp only [Format.zeroFields, List.forall_mem_cons] at h <;>
    simp only [Format.keep, layout_toNat, lowVal_toNat, lowAct_toNat, actField_toNat, opcField_toNat, regField_toNat,
      addrField_toNat, lenField_toNat, valField_toNat, BitVec.ofNat_eq_ofNat, BitVec.toNat_ofNat] <;> omega

theorem payload_operands {o : Opcode} {w : CommandWord} {p : List Byte} (h : checkPayload o w p = .ok ()) :
    (operands o w p).payload = p := by
  rw [checkPayload_iff] at h
  cases o with
  | xout | play => rfl
  | _ => exact h.symm

/-- Settles O2: the operand fields, the opcode and zeros are the whole word. -/
theorem encodeDecodeRoundTrip : Obligations.EncodeDecodeRoundTrip := by
  intro c i hd
  obtain ⟨o, hopc, hzero, hpay, rfl⟩ := decode_cases hd
  have hword : (operands o c.word c.payload).word = c.word := by
    rw [word_operands, hopc, Format.keep_eq_self hzero]
  have hpayload : (operands o c.word c.payload).payload = c.payload := payload_operands hpay
  refine ⟨by rw [encode, hword, hpayload], ?_⟩
  rw [← checkPayload_encode_iff, opcode_operands, hword, hpayload, hpay]

/-! ## The operands (R103) -/

/-- An operand is read from one field of the word, the same in every row that has it. -/
theorem operands_fields (o : Opcode) (w : CommandWord) (p : List Byte) :
    (∀ r, (operands o w p).regOperand = some r → r = Reg.ofBits (regField w)) ∧
      (∀ a, (operands o w p).addrOperand = some a → a = addrField w) ∧
      (∀ n, (operands o w p).lenOperand = some n → n = lenField w) ∧
      (∀ v, (operands o w p).valOperand = some v → v = valField w) ∧
      (∀ b, (operands o w p).actOperand = some b → b = actField w) := by
  cases o <;>
    simp [operands, Instr.regOperand, Instr.addrOperand, Instr.lenOperand, Instr.valOperand, Instr.actOperand]

theorem Reg.index_ofBits_val (b : BitVec 4) : (Reg.ofBits b).index.val = b.toNat :=
  congrArg Fin.val (Reg.index_ofBits b.toFin)

/-- Settles O4: each operand is one of the five fields, and a field is its range of bits as a number. -/
theorem operandsAreUnsignedFields : Obligations.OperandsAreUnsignedFields := by
  intro c i hd
  obtain ⟨o, -, -, -, rfl⟩ := decode_cases hd
  obtain ⟨hreg, haddr, hlen, hval, hact⟩ := operands_fields o c.word c.payload
  refine ⟨fun r h => ?_, fun a h => ?_, fun n h => ?_, fun v h => ?_, fun b h => ?_⟩
  · rw [hreg r h, Reg.index_ofBits_val, regField_toNat]
  · rw [haddr a h, addrField_toNat]
  · rw [hlen n h, lenField_toNat]
  · rw [hval v h, valField_toNat]
  · rw [hact b h, actField_iff]

/-! ## The commands that do not decode (R112, R113, R133) -/

theorem checkPayload_ne_reservedOpcode (o : Opcode) (w : CommandWord) (p : List Byte) :
    checkPayload o w p ≠ .error .reservedOpcode := by
  unfold checkPayload
  split <;> split <;> simp

/-- Only an opcode byte of no row is rejected as reserved. -/
theorem decode_reservedOpcode_iff (c : Command) :
    decode c = .error .reservedOpcode ↔ Opcode.ofCode (opcField c.word) = none := by
  unfold decode
  split
  · next h => simp [h]
  · next o h =>
    rw [h]
    simp only [reduceCtorEq, iff_false]
    split
    · split
      · simp
      · next e he =>
        rintro ⟨⟩
        exact checkPayload_ne_reservedOpcode o c.word c.payload he
    · simp

/-- The bytes of no row are the ranges R113 lists. -/
theorem Opcode.ofCode_eq_none_iff (b : Byte) : Opcode.ofCode b = none ↔
    b.toNat = 0x00 ∨ (0x06 ≤ b.toNat ∧ b.toNat ≤ 0x0F) ∨ (0x17 ≤ b.toNat ∧ b.toNat ≤ 0x1F) ∨
      (0x23 ≤ b.toNat ∧ b.toNat ≤ 0x2F) ∨ (0x35 ≤ b.toNat ∧ b.toNat ≤ 0xFF) := by
  have := b.isLt
  simp only [Opcode.ofCode, Opcode.code, Opcode.all, List.find?_eq_none, List.mem_cons, List.not_mem_nil, or_false,
    beq_iff_eq, ← BitVec.toNat_inj, forall_eq_or_imp, BitVec.toNat_ofNat, forall_eq]
  omega

/-- Settles O6: the opcode byte is `W / 2^56`, and it is of no row exactly in the ranges of R113. -/
theorem reservedOpcodesAreRejected : Obligations.ReservedOpcodesAreRejected := by
  intro c
  rw [decode_reservedOpcode_iff, Opcode.ofCode_eq_none_iff, opcField_toNat]

/-- A word with a reserved opcode or a reserved bit decodes to nothing, whatever payload comes with it. -/
theorem decode_ne_ok_of_word {w : CommandWord}
    (h : ∀ o ∈ Opcode.ofCode (opcField w), reservedBitsZero o.format w = false) (p : List Byte) (i : Instr) :
    decode ⟨w, p⟩ ≠ .ok i := by
  intro hd
  obtain ⟨o, hopc, hzero, -⟩ := decode_cases hd
  have hz : reservedBitsZero o.format w = false := h o (by rw [← hopc]; exact ofCode_code o)
  exact Bool.false_ne_true (hz.symm.trans hzero)

/-- A word of a row that takes a payload decodes with every payload of `LEN` bytes (R111). -/
theorem decode_payloadWord {o : Opcode} {w : CommandWord} {p : List Byte} (ho : o.takesPayload = true)
    (hopc : opcField w = o.code) (hzero : reservedBitsZero o.format w = true)
    (hlen : p.length = (lenField w).toNat) : decode ⟨w, p⟩ = .ok (operands o w p) :=
  decode_of_row hopc hzero (by simp [checkPayload, ho, hlen])

/-- Settles O5: the payload of XOUT and PLAY is checked by its length only, and an ill-formed word fails before its
payload is looked at. -/
theorem specWordsDecode : Obligations.SpecWordsDecode :=
  ⟨by decide, by decide, by decide, by decide, by decide, by decide, by decide, by decide,
    fun _ hp => ⟨decode_payloadWord (o := .xout) rfl rfl rfl hp, decode_payloadWord (o := .play) rfl rfl rfl hp⟩,
    by decide,
    fun p i => ⟨decode_ne_ok_of_word (by decide) p i, decode_ne_ok_of_word (by decide) p i,
      decode_ne_ok_of_word (by decide) p i⟩⟩

end Sys2Proof

namespace Sys2Proof.Machine

/-! ## The step of an ill-formed command (R112) -/

/-- A command that matches no row does not decode. -/
theorem decode_ne_ok_of_noMatch {c : Command} (h : ∀ o, ¬ c.Matches o) (i : Instr) : decode c ≠ .ok i := fun hd => by
  obtain ⟨o, hm, -⟩ := (decode_eq_ok_iff c i).1 hd
  exact h o hm

theorem runCommand_rejected {c : Command} (h : ∀ i, decode c ≠ .ok i) (s : State) :
    runCommand c s = .next (rejectCommand s) := by
  cases hd : decode c with
  | ok i => exact absurd hd (h i)
  | error e => simp [runCommand, hd]

/-- Settles O7: a command that matches no row does not decode, and its rejection is one response. -/
theorem illFormedCommandOnlyResponds : Obligations.IllFormedCommandOnlyResponds := by
  intro s c cs hw hh hi hm
  rw [step_command hw hh hi, runCommand_rejected (decode_ne_ok_of_noMatch hm), rejectCommand, respond_eq_replied]
  rfl

/-! ## The commands that stream (R240, R244, R260) -/

/-- Settles O43: the frame `transferOut_spec` gives, with the response after it. -/
theorem xoutSendsThePayload : Obligations.XoutSendsThePayload := by
  intro s a n p ha hp hc hg
  obtain ⟨es, ds, hrun, hsent, -⟩ := transferOut_spec (m := 0) ha hp hc (by simpa using hg)
  refine ⟨_, by rw [exec, execXout, hrun, bind_done, finish_done, respond_log], ?_, rfl, rfl⟩
  rw [sent_replied, hsent]
  rfl

/-- Settles O45: the frame `transferIn_spec` gives, with the received bytes in the response. -/
theorem xinReturnsTheReceivedBytes : Obligations.XinReturnsTheReceivedBytes := by
  intro s a n ha hn hc hg
  have hn' : n.toNat ≠ 0 := fun h => hn (BitVec.eq_of_toNat_eq h)
  obtain ⟨es, ds, hrun, hsent, -⟩ := transferIn_spec (m := 0) ha hn' hc (by simpa using hg)
  refine ⟨_, by rw [exec, execXin, hrun, bind_done, finish_done, respond_log], ?_, rfl, rfl⟩
  rw [sent_replied, hsent]
  rfl

/-- The mirror after a fill fetch that received the bytes `hi` and `lo` (R255). -/
def State.fetched (s : State) (hi lo : Byte) : State :=
  (s.setReg .wramAddr s.cfg.fillAddr).setReg .wramData (hi ++ lo)

theorem fetched_wramAddr (s : State) (hi lo : Byte) : (s.fetched hi lo).reg .wramAddr = s.cfg.fillAddr := by
  rw [State.fetched, reg_setReg_other (by decide), reg_setReg_same]

theorem fetched_wramData (s : State) (hi lo : Byte) :
    ((s.fetched hi lo).reg .wramData).toNat = 256 * hi.toNat + lo.toNat := by
  rw [State.fetched, reg_setReg_same, toNat_append_bytes]

theorem fetched_other {r : Reg} (s : State) (hi lo : Byte) (ha : r ≠ .wramAddr) (hd : r ≠ .wramData) :
    (s.fetched hi lo).reg r = s.reg r := by
  rw [State.fetched, reg_setReg_other hd, reg_setReg_other ha]

/-- A playback body that runs (R250, R255, R260): the payload frame, the padding and the drain. -/
theorem playBody_spec {s : State} {p : List Byte} (hc : s.sel.cmd = false) (hw : writable s.cfg .wramAddr = true)
    (hp : p ≠ []) (ha : validAddr s.cfg s.cfg.playbackAddr = true)
    (hv : ∀ k, k < 65 → validAddr s.cfg (s.cfg.padAddr + BitVec.ofNat 16 (32 * k)) = true)
    (h : s.env.Grants (67 + (p.length - 1) / 32)) :
    ∃ es ds c, playBody p s = .done .ok (({ s with
        sel := ⟨false, false⟩, env := (s.env.withDreq ds).dropRx c }.fetched (s.env.rxAt (p.length + 2 + 6))
          (s.env.rxAt (p.length + 2 + 7))).log es) ∧
      sentOf es = dataFrame s.cfg s.cfg.opDataWrite s.cfg.playbackAddr p ++ fetchFrames s.cfg (s.reg .clockConfig) ++
        paddingFrames s.cfg s.cfg.padAddr 2052 (s.env.rxAt (p.length + 2 + 7)) 65 ++ [.delay 50000] := by
  obtain ⟨es, ds, hrun, hsent, hg⟩ := transferOut_spec (m := 66) ha hp hc h
  obtain ⟨es', ds', c, hrun', hsent', -⟩ := sendPadding_spec (m := 0) (n := 2052) (a := s.cfg.padAddr) (s := { s with
      sel := ⟨false, false⟩, env := (s.env.withDreq ds).dropRx (p.length + 2) }.log es) hw rfl
    (fun k hk => hv k (by omega)) hg
  simp only [log_env, rxAt_dropRx, withDreq_rxAt] at hrun' hsent'
  refine ⟨es ++ es' ++ [.delay 50000], ds', p.length + 2 + c, ?_, ?_⟩
  · simp only [playBody, hrun, bind_done, log_cfg, Config.playPadBytes, hrun']
    simp [delay, emit, State.log, State.setReg, State.fetched, Config.drainUs]
  · rw [sentOf_append, sentOf_append, hsent, hsent', ← List.append_assoc (dataFrame ..)]
    rfl

/-- `s` between the preamble of a playback and its payload, after a ready-wait with `j` false samples (R126, R260). -/
def State.preambled (s : State) (j : Nat) (ds : List Bool) : State :=
  { s with sel := ⟨false, false⟩, playing := true, env := (s.env.withDreq ds).dropRx 2 }.log
    (waitEvents j ++ [Event.pin .xdcs .low, .xfer 0x00#8 (s.env.rxAt 0), .xfer 0x00#8 (s.env.rxAt 1),
      .pin .xdcs .high, .play true])

theorem sent_preambled (s : State) (j : Nat) (ds : List Bool) : (s.preambled j ds).sent = s.sent ++
    [.poll true, .pin .xdcs .low, .xfer 0x00#8 0, .xfer 0x00#8 0, .pin .xdcs .high, .play true] := by
  rw [State.preambled, sent_log, sentOf_append, sentOf_waitEvents]
  rfl

/-- The end of a playback whose body answered OK in `u` (R260, R266). -/
def State.played (u : State) : State := { u with playing := false }.replied 0x00#8 0 [] [.play false]

theorem sent_played (u : State) : u.played.sent = u.sent ++ [.play false, .resp 0x00#8 0 []] := by
  rw [State.played, sent_replied, List.append_assoc]
  rfl

theorem exec_play_ok {s u : State} {n : Count} {p : List Byte} {j : Nat} {ds : List Bool} (hr : s.env.ReadyAfter j ds)
    (hc : s.sel.cmd = false) (hrun : playBody p (s.preambled j ds) = .done .ok u) :
    exec (.play n p) s = .next u.played := by
  rw [State.preambled] at hrun
  rw [exec, execPlay, startPlayback_free hr hc, hrun]
  rfl

/-- Settles O49: the body runs in the state after the preamble, two exchanges later, and the flag is cleared after it. -/
theorem playStreamsThePayload : Obligations.PlayStreamsThePayload := by
  intro s n p hc hw hp ha hv hg
  obtain ⟨j, ds, hr, hg'⟩ := Env.Grants.ready (m := 67 + (p.length - 1) / 32) (by rwa [Nat.add_right_comm])
  obtain ⟨es, ds', c, hrun, hsent⟩ := playBody_spec (s := s.preambled j ds) rfl hw hp ha hv hg'
  have hrx : ∀ i, (s.preambled j ds).env.rxAt (p.length + 2 + i) = s.env.rxAt (p.length + (4 + i)) := fun i => by
    rw [State.preambled, log_env, rxAt_dropRx, withDreq_rxAt]
    congr 1
    omega
  rw [hrx, hrx] at hrun
  rw [hrx] at hsent
  refine ⟨_, exec_play_ok hr hc hrun, fetched_wramAddr (s.preambled j ds) _ _, fetched_wramData (s.preambled j ds) _ _,
    fun r => fetched_other (s.preambled j ds) _ _, ?_, rfl⟩
  calc
    _ = (s.preambled j ds).sent ++ sentOf es ++ [.play false, .resp 0x00#8 0 []] :=
      (sent_played _).trans (congrArg (· ++ _) (sent_log _ es))
    _ = _ := by
      rw [sent_preambled, hsent]
      simp only [List.append_assoc]
      rfl

end Sys2Proof.Machine

/-! # The proofs for spec/40_chip_select.md: the select lines, the queries and the first ready-wait -/

namespace Sys2Proof.Machine

/-! ## The commands that hang before they act (R146, R160, R240, R244, R260) -/

/-- Settles O21: each of the four commands ends as its first ready-wait does, in `waitReady_neverReady`'s hang. -/
theorem firstReadyWaitHangs : Obligations.FirstReadyWaitHangs := by
  intro i s hn hi
  cases i with
  | lupd r => rw [exec, execLupd, readReg_neverReady hn]; rfl
  | xout a n p => rw [exec, execXout, transferOut, openFrame_neverReady hn]; rfl
  | xin a n => rw [exec, execXin, transferIn, openFrame_neverReady hn]; rfl
  | play n p => rw [exec, execPlay, startPlayback, waitReady_neverReady hn]; rfl
  | selcmd _ | seldata _ | qcmd | qdata | qready | lasgn _ _ | lset _ _ | lclr _ _ | commit _ | rdcache _ | settle _
  | hrst | srst | init | valid _ | pad _ _ => exact hi.elim

/-! ## The select commands (R142, R143): a deassertion, a free assertion, a conflict -/

theorem exec_selcmd_of_selected {s u : State} {b : Bool} {es : List Event} (h : selectCmd b s = (true, u.log es)) :
    exec (.selcmd b) s = .next (u.replied 0x00#8 0 [] es) := by
  rw [exec, execSelcmd, h]
  exact congrArg Host.Outcome.next (respond_log ..)

theorem exec_seldata_of_selected {s u : State} {b : Bool} {es : List Event} (h : selectData b s = (true, u.log es)) :
    exec (.seldata b) s = .next (u.replied 0x00#8 0 [] es) := by
  rw [exec, execSeldata, h]
  exact congrArg Host.Outcome.next (respond_log ..)

/-- Settles O26: the three cases of the arbitration step for command-select (R140). -/
theorem selcmdDrivesOrIsRefused : Obligations.SelcmdDrivesOrIsRefused := by
  intro s b
  cases b with
  | false => exact exec_selcmd_of_selected (selectCmd_false s)
  | true =>
    cases hd : s.sel.data with
    | false => exact exec_selcmd_of_selected (selectCmd_true_free hd)
    | true =>
      rw [exec, execSelcmd, selectCmd_true_conflict hd]
      exact congrArg Host.Outcome.next (respond_log ..)

/-- Settles O27: the three cases of the arbitration step for data-select (R141). -/
theorem seldataDrivesOrIsRefused : Obligations.SeldataDrivesOrIsRefused := by
  intro s b
  cases b with
  | false => exact exec_seldata_of_selected (selectData_false s)
  | true =>
    cases hc : s.sel.cmd with
    | false => exact exec_seldata_of_selected (selectData_true_free hc)
    | true =>
      rw [exec, execSeldata, selectData_true_conflict hc]
      exact congrArg Host.Outcome.next (respond_log ..)

/-! ## The queries (R144, R145, R147) -/

/-- Settles O28: each query is one response, in the state it was asked in. -/
theorem queriesAnswerTheSelectLines : Obligations.QueriesAnswerTheSelectLines := fun s =>
  ⟨congrArg Host.Outcome.next (respond_eq_replied ⟨.ok, boolValue s.sel.cmd, []⟩ s),
    congrArg Host.Outcome.next (respond_eq_replied ⟨.ok, boolValue s.sel.data, []⟩ s)⟩

theorem Env.sample_eq_sampleAt_zero (e : Env) : e.sample = e.sampleAt 0 := by
  cases h : e.dreq <;> simp [Env.sample, Env.sampleAt, h]

theorem poll_eq_log (s : State) : poll s =
    (s.env.sampleAt 0, { s with env := s.env.withDreq s.env.dreq.tail }.log [.poll (s.env.sampleAt 0)]) := by
  rw [← Env.sample_eq_sampleAt_zero]
  rfl

/-- Settles O29: the one sample is `poll_eq_log`'s, and the response follows it. -/
theorem qreadySamplesOnce : Obligations.QreadySamplesOnce := by
  intro s
  rw [exec, execQready, poll_eq_log]
  exact congrArg Host.Outcome.next (respond_log ..)

end Sys2Proof.Machine

/-! # The proofs for spec/41_register_file.md: the local writes, the cached read, LUPD and COMMIT -/

namespace Sys2Proof.Machine

/-! ## The commands that are refused (R160, R161, R167, R168) -/

theorem exec_lupd_conflict {r : Reg} {s : State} {n : Nat} {ds : List Bool} (h : s.env.ReadyAfter n ds)
    (hd : s.sel.data = true) :
    exec (.lupd r) s = .next ({ s with env := s.env.withDreq ds }.replied 0x01#8 0 []
      (waitEvents n ++ [Event.diag .arbitrationConflict .xcs])) := by
  rw [exec, execLupd, readReg_conflict h hd]
  exact congrArg Host.Outcome.next (respond_log ..)

theorem exec_commit_notWritable {r : Reg} {s : State} (hw : writable s.cfg r = false) :
    exec (.commit r) s = .next (s.replied 0x04#8 0 [] []) := by
  rw [exec, execCommit, commitReg_notWritable hw]
  exact congrArg Host.Outcome.next (respond_eq_replied ..)

theorem exec_commit_conflict {r : Reg} {s : State} (hw : writable s.cfg r = true) (hd : s.sel.data = true) :
    exec (.commit r) s = .next (s.replied 0x01#8 0 [] [Event.diag .arbitrationConflict .xcs]) := by
  rw [exec, execCommit, commitReg_conflict hw hd]
  exact congrArg Host.Outcome.next (respond_log ..)

/-- Settles O32: a free line gives `exec_lupd_free`'s state, whose one new entry is the two bytes joined (R70). -/
theorem lupdReadsOneRegister : Obligations.LupdReadsOneRegister := by
  intro s r n ds hr
  refine ⟨fun hd => ⟨_, exec_lupd_free hr hd, ?_, fun r' hne => reg_setReg_other (s := s) hne, rfl⟩,
    exec_lupd_conflict hr⟩
  calc
    _ = (s.env.rxAt 2 ++ s.env.rxAt 3 : Word).toNat := congrArg BitVec.toNat (reg_setReg_same s r _)
    _ = _ := toNat_append_bytes ..

/-- Settles O33: the three ends of the commit procedure, in the order of its checks (R167). -/
theorem commitWritesOneFrame : Obligations.CommitWritesOneFrame := fun _ _ =>
  ⟨exec_commit_notWritable, exec_commit_conflict, exec_commit_free⟩

/-! ## The local writes and the cached read (R162 to R165, R170) -/

/-- LSET is an assignment computed from the entry (R164). -/
theorem exec_lset (r : Reg) (m : Word) (s : State) :
    exec (.lset r m) s = exec (.lasgn r (s.reg r ||| m)) s := rfl

/-- LCLR is an assignment computed from the entry (R165). -/
theorem exec_lclr (r : Reg) (m : Word) (s : State) :
    exec (.lclr r m) s = exec (.lasgn r (s.reg r &&& ~~~m)) s := rfl

/-- An assignment writes its entry and frames everything else (R162, R163). -/
theorem exec_lasgn_frame (r : Reg) (v : Word) (s : State) :
    ∃ t, exec (.lasgn r v) s = .next t ∧ t.reg r = v ∧ (∀ r', r' ≠ r → t.reg r' = s.reg r') ∧
      t = { s with x := t.x }.replied 0x00#8 0 [] [] :=
  ⟨_, exec_lasgn r v s, reg_setReg_same s r v, fun _ hne => reg_setReg_other (s := s) hne, rfl⟩

/-- Settles O30: each local write is an assignment, and `exec_lasgn_frame` is the frame of an assignment. -/
theorem localWritesChangeOneEntry : Obligations.LocalWritesChangeOneEntry := by
  intro s r v
  rw [exec_lset, exec_lclr]
  exact ⟨exec_lasgn_frame .., exec_lasgn_frame .., exec_lasgn_frame ..⟩

/-- Settles O31: zero-extending an entry to 32 bits keeps its value. -/
theorem rdcacheAnswersTheMirror : Obligations.RdcacheAnswersTheMirror := fun s r =>
  ⟨(s.reg r).setWidth 32, BitVec.toNat_setWidth_of_le (by decide), exec_rdcache r s⟩

end Sys2Proof.Machine

/-! # The proofs for spec/42_command_protocol.md: the settle time, VALID, the resets and the initialization -/

namespace Sys2Proof.Machine

/-! ## The settle time (R190 to R193, R195) -/

theorem one_le_settleRate {c : Cfg} (h : c.wf = true) (clk : Word) (r : Reg) : 1 ≤ settleRate c clk r := by
  obtain ⟨hxtal, hmult, -⟩ := (wellFormedConfigurationMeetsItsBounds c).1 h
  unfold settleRate
  split
  · exact hxtal _
  · exact hmult _ _ _ (hxtal _)

theorem nominalCycles_le {c : Cfg} (h : c.wf = true) (r : Reg) : nominalCycles c r ≤ 4294 := by
  obtain ⟨-, -, hcycles, -⟩ := (wellFormedConfigurationMeetsItsBounds c).1 h
  exact hcycles r

/-- `ceil_div` of R10 is Mathlib's division rounded up. -/
theorem ceilDiv_eq (p q : Nat) : ceilDiv p q = p ⌈/⌉ q := rfl

theorem ceilDiv_le_self {q : Nat} (hq : 1 ≤ q) (p : Nat) : ceilDiv p q ≤ p := by
  rw [ceilDiv_eq, ceilDiv_le_iff_le_mul hq]
  exact Nat.le_mul_of_pos_left p hq

theorem ceilDiv_eq_zero_iff {p q : Nat} (hq : 1 ≤ q) : ceilDiv p q = 0 ↔ p = 0 := by
  rw [ceilDiv_eq, ← Nat.le_zero, ceilDiv_le_iff_le_mul hq, Nat.mul_zero, Nat.le_zero]

theorem le_ceilDiv_mul {q : Nat} (hq : 1 ≤ q) (p : Nat) : p ≤ ceilDiv p q * q := by
  rw [Nat.mul_comm]
  exact le_smul_ceilDiv (Nat.zero_lt_of_lt hq)

theorem ceilDiv_mul_lt {q : Nat} (hq : 1 ≤ q) (p : Nat) : ceilDiv p q * q < p + q := by
  have : ceilDiv p q * q ≤ p + q - 1 := Nat.div_mul_le_self ..
  omega

theorem settleFor_eq (c : Cfg) (clk : Word) (r : Reg) :
    settleFor c clk r = ceilDiv (1000000 * nominalCycles c r) (settleRate c clk r) + 1 := rfl

/-- Settles O35: the bounds of a division rounded up, by a rate of at least 1, plus the margin of 1. -/
theorem settleTimeRange : Obligations.SettleTimeRange := by
  intro c clk r hw
  have hcycles := nominalCycles_le hw r
  have hq := one_le_settleRate hw clk r
  have hle := ceilDiv_le_self hq (1000000 * nominalCycles c r)
  have hzero := ceilDiv_eq_zero_iff (p := 1000000 * nominalCycles c r) hq
  have hlow := le_ceilDiv_mul hq (1000000 * nominalCycles c r)
  have hhigh := ceilDiv_mul_lt hq (1000000 * nominalCycles c r)
  rw [settleFor_eq, Nat.add_mul, Nat.one_mul]
  generalize ceilDiv (1000000 * nominalCycles c r) (settleRate c clk r) = k at *
  refine ⟨?_, ?_, ?_, ?_, ?_, ?_⟩ <;> omega

theorem exec_settle (r : Reg) (s : State) :
    exec (.settle r) s = .next (s.replied 0x00#8 (BitVec.ofNat 32 (settleTime s r)) [] []) :=
  congrArg Host.Outcome.next (respond_eq_replied ⟨.ok, BitVec.ofNat 32 (settleTime s r), []⟩ s)

/-- The settle time fits the response value (R193, R195). -/
theorem toNat_ofNat_settleTime {s : State} (hw : s.cfg.wf = true) (r : Reg) :
    (BitVec.ofNat 32 (settleTime s r)).toNat = settleTime s r := by
  obtain ⟨-, -, hlt, -⟩ := settleTimeRange s.cfg (s.reg .clockConfig) r hw
  rw [BitVec.toNat_ofNat]
  exact Nat.mod_eq_of_lt hlt

/-- The three fields that make up a clock value are the ones the block reads (R46). -/
theorem clkFields_of_toNat_eq {clk : Word} {m : BitVec 3} {a : BitVec 2} {f : BitVec 11}
    (h : clk.toNat = m.toNat * 2 ^ 13 + a.toNat * 2 ^ 11 + f.toNat) :
    clkMult clk = m ∧ clkAdd clk = a ∧ clkFreq clk = f := by
  have ha := a.isLt
  have hf := f.isLt
  refine ⟨BitVec.eq_of_toNat_eq ?_, BitVec.eq_of_toNat_eq ?_, BitVec.eq_of_toNat_eq ?_⟩ <;>
    simp only [clkMult, clkAdd, clkFreq, BitVec.extractLsb'_toNat, Nat.shiftRight_eq_div_pow, h] <;> omega

/-- Settles O34: the value is the settle time, and the clock fields name its rate. -/
theorem settleAnswersTheSettleTime : Obligations.SettleAnswersTheSettleTime := by
  intro s r hw
  refine ⟨_, exec_settle r s, fun f a m hclk => ?_⟩
  obtain ⟨rfl, rfl, rfl⟩ := clkFields_of_toNat_eq hclk
  exact toNat_ofNat_settleTime hw r

/-! ## Address validity (R200, R201) -/

theorem exec_valid (a : Addr) (s : State) :
    exec (.valid a) s = .next (s.replied 0x00#8 (boolValue (validAddr s.cfg a)) [] []) :=
  congrArg Host.Outcome.next (respond_eq_replied ⟨.ok, boolValue (validAddr s.cfg a), []⟩ s)

theorem boolValue_eq_zero_iff (b : Bool) : boolValue b = 0 ↔ b = false := by
  cases b <;> decide

theorem boolValue_zero_or_one (b : Bool) : boolValue b = 0 ∨ boolValue b = 1 := by
  cases b <;> decide

theorem exists_mem_vector_toList_iff {α : Type} {n : Nat} (v : Vector α n) {p : α → Prop} :
    (∃ a ∈ v.toList, p a) ↔ ∃ i : Fin n, p v[i] :=
  not_iff_not.1 (by simpa only [not_exists, not_and] using forall_mem_vector_toList_iff v (p := fun a => ¬ p a))

theorem AddrRange.holds_iff (g : AddrRange) (a : Addr) :
    AddrRange.holds g a = true ↔ g.lo ≤ a.toNat ∧ a.toNat < g.hi := by
  simp [AddrRange.holds]

/-- An address is forbidden exactly when it lies in one of the four half-open ranges (R200). -/
theorem validAddr_eq_false_iff (c : Cfg) (a : Addr) : validAddr c a = false ↔
    ∃ i : Fin 4, c.forbidden[i].lo ≤ a.toNat ∧ a.toNat < c.forbidden[i].hi := by
  simp only [validAddr, Bool.not_eq_false', List.any_eq_true, AddrRange.holds_iff, exists_mem_vector_toList_iff]

/-- Settles O36: the value is 0 exactly where the predicate is false. -/
theorem validTestsTheForbiddenRanges : Obligations.ValidTestsTheForbiddenRanges := fun s a =>
  ⟨_, exec_valid a s, (boolValue_eq_zero_iff _).trans (validAddr_eq_false_iff s.cfg a), boolValue_zero_or_one _⟩

/-! ## The hard reset (R210 to R214) -/

/-- Settles O37: the two ends of the hard-reset procedure, as the command's response or its hang. -/
theorem hrstPulsesAndPolls : Obligations.HrstPulsesAndPolls := by
  refine fun s => ⟨fun n ds hr => ?_, fun hn => ?_⟩
  · rw [exec, execHrst, hardReset_readyAfter hr]
    exact congrArg Host.Outcome.next (respond_log ..)
  · rw [exec, execHrst, hardReset_neverReady hn]
    rfl

/-! ## The initialization (R230, R231) -/

/-- `t` holds the four values of `Init()`, and its other entries are those of `s` (R42, R230). -/
def State.InitialisedFrom (t s : State) : Prop :=
  t.reg .mode = s.cfg.initValue.mode ∧ t.reg .bass = s.cfg.initValue.bass ∧
  t.reg .clockConfig = s.cfg.initValue.clockConfig ∧ t.reg .volume = s.cfg.initValue.volume ∧
  ∀ r, r ∉ [Reg.mode, .bass, .clockConfig, .volume] → t.reg r = s.reg r

theorem initialised_initialisedFrom (s : State) : s.initialised.InitialisedFrom s := by
  refine ⟨reg_initialised s _, reg_initialised s _, reg_initialised s _, reg_initialised s _, fun r hr => ?_⟩
  rw [reg_initialised]
  cases r with
  | mode | bass | clockConfig | volume => simp at hr
  | _ => rfl

theorem exec_init_free {s : State} (hw : s.cfg.wf = true) (hd : s.sel.data = false) :
    exec .init s = .next ({ s.initialised with sel := ⟨false, false⟩, env := s.env.dropRx 16 }.replied 0x00#8 0 []
      (initFrames s)) := by
  rw [exec, execInit, initSystem_free hw hd]
  exact congrArg Host.Outcome.next (respond_log ..)

theorem exec_init_conflict {s : State} (hw : s.cfg.wf = true) (hd : s.sel.data = true) :
    exec .init s = .next ((s.setReg .mode s.cfg.initValue.mode).replied 0x01#8 0 []
      [Event.diag .arbitrationConflict .xcs]) := by
  rw [exec, execInit, initSystem_conflict hw hd]
  exact congrArg Host.Outcome.next (respond_log ..)

/-- Settles O38: the two ends of the initialization procedure. -/
theorem initAssignsAndCommits : Obligations.InitAssignsAndCommits := by
  refine fun s hw => ⟨fun hd => ⟨_, exec_init_free hw hd, ?_⟩, exec_init_conflict hw⟩
  obtain ⟨hmode, hbass, hclock, hvolume, hothers⟩ := initialised_initialisedFrom s
  exact ⟨hmode, hbass, hclock, hvolume, hothers, rfl⟩

/-! ## The soft reset (R220 to R223) -/

/-- Settles O41: the commit that would request the chip's reset is refused, and the procedure ends with it. -/
theorem srstIsRefusedByDataSelect : Obligations.SrstIsRefusedByDataSelect := by
  intro s hw hd
  have hcommit := commitReg_conflict (s := s.setReg .mode (s.reg .mode ||| modeResetMask s.cfg)) (wf_mode hw).1 hd
  rw [exec, execSrst, softReset, hcommit]
  exact congrArg Host.Outcome.next (respond_log ..)

/-- The frame that requests the chip's own reset (R220). -/
def resetRequestFrame (s : State) : List Event :=
  writeFrame s.cfg s.env.rxAt .mode (s.reg .mode ||| modeResetMask s.cfg) (settleTime s .mode)

/-- `s` but for its events, after the reset request and the polls that leave the samples `ds` listed (R220, R221). -/
def State.resetPolled (s : State) (ds : List Bool) : State :=
  { s.setReg .mode (s.reg .mode ||| modeResetMask s.cfg) with
    sel := ⟨false, false⟩, env := (s.env.withDreq ds).dropRx 4 }

theorem resetRequested_polled (s : State) (ds : List Bool) (es : List Event) :
    { s.resetRequested with env := (s.env.withDreq ds).dropRx 4 }.log es =
      (s.resetPolled ds).log (resetRequestFrame s ++ es) :=
  log_log (s.resetPolled ds) (resetRequestFrame s) es

theorem settleTime_resetPolled (s : State) (ds : List Bool) (r : Reg) :
    settleTime (s.resetPolled ds) r = settleTime s r :=
  congrArg (settleFor s.cfg · r) (reg_setReg_other (s := s) (by decide : Reg.clockConfig ≠ .mode))

/-! ### The procedures a soft reset goes on to, after the events `es` (R222) -/

theorem initSystem_log_free {s : State} (hw : s.cfg.wf = true) (hd : s.sel.data = false) (es : List Event) :
    initSystem (s.log es) =
      (.ok, { s.initialised with sel := ⟨false, false⟩, env := s.env.dropRx 16 }.log (es ++ initFrames s)) := by
  rw [initSystem_free (s := s.log es) hw hd, ← log_log _ es]
  rfl

theorem hardReset_log_readyAfter {s : State} {n : Nat} {ds : List Bool} (h : s.env.ReadyAfter n ds)
    (es : List Event) :
    hardReset (s.log es) = .done () ({ s with rst := .high, env := s.env.withDreq ds }.log
      (es ++ (resetPulse s.cfg ++ pollRounds n ++ [Event.poll true]))) := by
  rw [hardReset_readyAfter (s := s.log es) h, ← log_log _ es]
  rfl

theorem hardReset_log_neverReady {s : State} (h : s.env.NeverReady) (es : List Event) :
    hardReset (s.log es) = .hung .resetPoll ({ s with rst := .high, env := s.env.withDreq [] }.log
      (es ++ (resetPulse s.cfg ++ pollRounds s.env.dreq.length ++ [Event.poll false]))) := by
  rw [hardReset_neverReady (s := s.log es) h, ← log_log _ es]
  rfl

/-! ### The command -/

theorem exec_srst_ready {s : State} {n : Nat} {ds : List Bool} (hw : s.cfg.wf = true) (hd : s.sel.data = false)
    (h : s.env.ReadyAfter n ds) (hn : n ≤ 333) : exec .srst s = .next
      ({ (s.resetPolled ds).initialised with
          sel := ⟨false, false⟩, env := (s.resetPolled ds).env.dropRx 16 }.replied 0x00#8 0 []
        (resetRequestFrame s ++ (pollRounds n ++ [Event.poll true]) ++ initFrames (s.resetPolled ds))) := by
  rw [exec, execSrst, softReset_ready hw hd h hn, resetRequested_polled,
    initSystem_log_free (s := s.resetPolled ds) hw rfl]
  exact congrArg Host.Outcome.next (respond_log ..)

/-- Settles O39: the initialization runs in the state after the polls, whose clock value is still the old one. -/
theorem srstReinitialisesWhenReady : Obligations.SrstReinitialisesWhenReady := by
  intro s n ds hw hd hready hn
  obtain ⟨hmode, hbass, hclock, hvolume, hothers⟩ := initialised_initialisedFrom (s.resetPolled ds)
  refine ⟨_, exec_srst_ready hw hd hready hn, hmode, hbass, hclock, hvolume, fun r hr => (hothers r hr).trans ?_, ?_⟩
  · exact reg_setReg_other (s := s) (by rintro rfl; simp at hr)
  · have henv : (s.resetPolled ds).env = (s.env.withDreq ds).dropRx 4 := rfl
    simp only [initFrames, settleTime_resetPolled, List.append_assoc, henv, dropRx_dropRx]
    rfl

theorem softReset_timeout_polled {s : State} (hw : s.cfg.wf = true) (hd : s.sel.data = false)
    (h : ∀ j, j < 334 → s.env.sampleAt j = false) :
    softReset s = (hardReset ((s.resetPolled (s.env.dreq.drop 334)).log
      (resetRequestFrame s ++ (pollRounds 333 ++ [Event.poll false])))).bind
        fun _ s => .done .failSoftResetTimeout s := by
  rw [softReset_timeout hw hd h, resetRequested_polled]

/-- Settles O40: the two ends of the hard reset, in the state after the 334 polls. -/
theorem srstTimesOutIntoHardReset : Obligations.SrstTimesOutIntoHardReset := by
  intro s hw hd hs
  refine ⟨fun n ds hr => ?_, fun hn => ?_⟩
  · rw [exec, execSrst, softReset_timeout_polled hw hd hs, hardReset_log_readyAfter (n := n) (ds := ds) hr,
      bind_done, bind_done, finish_done, respond_log]
    simp only [List.append_assoc]
    rfl
  · rw [exec, execSrst, softReset_timeout_polled hw hd hs, hardReset_log_neverReady hn, bind_hung, bind_hung,
      finish_hung]
    simp only [List.append_assoc]
    rfl

end Sys2Proof.Machine

/-! # The proofs for spec/43_streaming.md: the transfers, the padding and the playback that stop or succeed -/

namespace Sys2Proof.Machine

/-! ## The commands that stream, from how their procedure ends (R242, R246, R257, R266) -/

theorem exec_xout_of_done {a : Addr} {n : Count} {p : List Byte} {s u : State} {st : Status} {es : List Event}
    (h : transferOut a p s = .done st (u.log es)) :
    exec (.xout a n p) s = .next (u.replied st.code 0 [] es) := by
  rw [exec, execXout, h, bind_done, finish_done, respond_log]

theorem exec_xin_of_done {a : Addr} {n : Count} {s u : State} {st : Status} {d : List Byte} {es : List Event}
    (h : transferIn a n.toNat s = .done (st, d) (u.log es)) :
    exec (.xin a n) s = .next (u.replied st.code 0 d es) := by
  rw [exec, execXin, h, bind_done, finish_done, respond_log]

theorem exec_pad_of_done {a : Addr} {n : Count} {s u : State} {st : Status} {es : List Event}
    (h : sendPadding a n.toNat s = .done st (u.log es)) :
    exec (.pad a n) s = .next (u.replied st.code 0 [] es) := by
  rw [exec, execPad, h, bind_done, finish_done, respond_log]

/-- A playback whose body ends clears the flag and answers as its body did (R260). -/
theorem exec_play_of_done {s u : State} {n : Count} {p : List Byte} {j : Nat} {ds : List Bool} {st : Status}
    (hr : s.env.ReadyAfter j ds) (hc : s.sel.cmd = false) (h : playBody p (s.preambled j ds) = .done st u) :
    exec (.play n p) s = .next (respond ⟨st, 0, []⟩ (setPlaying false u)) := by
  rw [State.preambled] at h
  rw [exec, execPlay, startPlayback_free hr hc, h, bind_done, bind_done, finish_done]

/-! ## A refused check ends every procedure above it (R283) -/

section Refused
variable {s u : State} {a : Addr} {st : Status}

theorem transferOut_refused {p : List Byte} (h : openFrame a p.length s = .done st u) (hst : st ≠ .ok) :
    transferOut a p s = .done st u := by
  simp [transferOut, h]

theorem transferIn_refused {n : Nat} (h : openFrame a n s = .done st u) (hst : st ≠ .ok) :
    transferIn a n s = .done (st, []) u := by
  simp [transferIn, h]

theorem fetchFill_refused (h : commitReg .wramAddr (s.setReg .wramAddr s.cfg.fillAddr) = (st, u)) (hst : st ≠ .ok) :
    fetchFill s = .done (st, 0) u := by
  simp [fetchFill, h]

theorem padLoop_refused {n l k : Nat} {f : Byte}
    (h : transferOut (chunkAddr a k) (List.replicate (chunkSize n k) f) s = .done st u) (hst : st ≠ .ok) :
    padLoop a n f (l + 1) k s = .done st u := by
  simp [padLoop, h]

theorem sendPadding_refused {n : Nat} {f : Byte} (h : fetchFill s = .done (st, f) u) (hst : st ≠ .ok) :
    sendPadding a n s = .done st u := by
  simp [sendPadding, h]

theorem playBody_refused {p : List Byte} (h : transferOut s.cfg.playbackAddr p s = .done st u) (hst : st ≠ .ok) :
    playBody p s = .done st u := by
  simp [playBody, h]

end Refused

/-! ## The transfers that fail (R240, R244, R245) -/

/-- `i` is a transfer of `m` bytes at `a`, out or in. -/
def Instr.Transfers (i : Instr) (a : Addr) (m : Nat) : Prop :=
  (∃ n p, i = .xout a n p ∧ m = p.length) ∨ (∃ n, i = .xin a n ∧ m = n.toNat)

theorem exec_transfer_refused {i : Instr} {a : Addr} {m : Nat} {s u : State} {st : Status} {es : List Event}
    (hi : Instr.Transfers i a m) (h : openFrame a m s = .done st (u.log es)) (hst : st ≠ .ok) :
    exec i s = .next (u.replied st.code 0 [] es) := by
  rcases hi with ⟨n, p, rfl, rfl⟩ | ⟨n, rfl, rfl⟩
  · exact exec_xout_of_done (transferOut_refused h hst)
  · exact exec_xin_of_done (transferIn_refused h hst)

/-- Settles O42: the three checks of the frame's opening, in their order; each refusal ends the command. -/
theorem transfersFailClosed : Obligations.TransfersFailClosed := by
  intro s i a m hi k ds hr
  refine ⟨fun ha => ?_, fun ha hm => ?_, fun ha hm hc => ?_⟩
  · exact exec_transfer_refused hi (openFrame_invalid hr ha) (by decide)
  · subst hm
    exact exec_transfer_refused hi (openFrame_zero hr ha) (by decide)
  · exact exec_transfer_refused hi (openFrame_conflict hr ha hm hc) (by decide)

/-! ## The padding (R250, R255, R257) -/

/-- Settles O48: the two refusals of the commit, each the end of the fetch and so of the padding. -/
theorem padFetchFailures : Obligations.PadFetchFailures := by
  refine fun s a n => ⟨fun hw => ?_, fun hw hd => ?_⟩
  · have hcommit := commitReg_notWritable (s := s.setReg .wramAddr s.cfg.fillAddr) hw
    have hfetch := fetchFill_refused hcommit (by decide)
    exact exec_pad_of_done (u := s.setReg .wramAddr s.cfg.fillAddr) (es := []) (sendPadding_refused hfetch (by decide))
  · have hcommit := commitReg_conflict (s := s.setReg .wramAddr s.cfg.fillAddr) hw hd
    exact exec_pad_of_done (sendPadding_refused (fetchFill_refused hcommit (by decide)) (by decide))

/-- Settles O46: the padding `sendPadding_spec` gives, over the mirror a fill fetch leaves. -/
theorem padSendsTheFillByte : Obligations.PadSendsTheFillByte := by
  intro s a n hw hd hv hg
  obtain ⟨es, ds, c, hrun, hsent, -⟩ := sendPadding_spec (m := 0) hw hd hv (by rwa [Nat.zero_add])
  refine ⟨_, exec_pad_of_done hrun, fetched_wramAddr s _ _, fetched_wramData s _ _, fun r => fetched_other s _ _, ?_,
    rfl⟩
  rw [sent_replied, hsent, ← List.append_assoc]
  rfl

/-- A chunk loop whose chunk `j` is the first with a forbidden address (R250): the `j` chunks before it, and the
ready-wait of the chunk refused. -/
theorem padLoop_forbidden {s : State} {a : Addr} {n j l : Nat} {f : Byte} (hs : s.sel = ⟨false, false⟩)
    (hj : 32 * j < n) (hv : ∀ k, k < j → validAddr s.cfg (a + BitVec.ofNat 16 (32 * k)) = true)
    (hf : validAddr s.cfg (a + BitVec.ofNat 16 (32 * j)) = false) (h : s.env.Grants (1 + j)) :
    ∃ es e, padLoop a n f (j + (l + 1)) 0 s = .done .failInvalidAddress ({ s with env := e }.log es) ∧
      sentOf es = paddingFrames s.cfg a n f j ++ [Event.poll true] := by
  obtain ⟨es, ds, c, sd, hloop, hsent, hg, hsd⟩ := padLoop_prefix (a := a) (n := n) (f := f) j 0 1 (l + 1) s
    (by rw [hs]) (fun k _ hk => ⟨by omega, hv k (by omega)⟩) h
  obtain rfl : sd = s.sel := by rw [hsd, hs, ite_self]
  obtain ⟨i, ds', hr, -⟩ := Env.Grants.ready (m := 0) hg
  rw [Nat.zero_add] at hloop hsent
  have hopen := openFrame_invalid (m := (List.replicate (chunkSize n j) f).length) (a := chunkAddr a j)
    (s := { s with env := (s.env.withDreq ds).dropRx c }.log es) hr (by rwa [chunkAddr_eq])
  refine ⟨es ++ waitEvents i, ((s.env.withDreq ds).dropRx c).withDreq ds', ?_, ?_⟩
  · rw [hloop, padLoop_refused (transferOut_refused hopen (by decide)) (by decide), ← log_log]
    rfl
  · rw [sentOf_append, sentOf_waitEvents, ← hsent]
    rfl

/-- A padding that is refused at chunk `j` (R250, R255): the fill fetch, then the chunk loop. -/
theorem sendPadding_forbidden {s : State} {a : Addr} {n j : Nat} (hw : writable s.cfg .wramAddr = true)
    (hd : s.sel.data = false) (hj : 32 * j < n)
    (hv : ∀ k, k < j → validAddr s.cfg (a + BitVec.ofNat 16 (32 * k)) = true)
    (hf : validAddr s.cfg (a + BitVec.ofNat 16 (32 * j)) = false) (h : s.env.Grants (2 + j)) :
    ∃ es e, sendPadding a n s = .done .failInvalidAddress
        (({ s with sel := ⟨false, false⟩, env := e }.fetched (s.env.rxAt 6) (s.env.rxAt 7)).log es) ∧
      sentOf es = fetchFrames s.cfg (s.reg .clockConfig) ++ paddingFrames s.cfg a n (s.env.rxAt 7) j ++
        [Event.poll true] := by
  obtain ⟨es, ds, hfetch, hsent, hg⟩ := fetchFill_spec (m := 1 + j) hw hd (by rwa [Nat.add_right_comm])
  obtain ⟨l, hl⟩ : ∃ l, (n + 31) / 32 = j + (l + 1) := ⟨(n + 31) / 32 - j - 1, by omega⟩
  obtain ⟨es', e, hloop, hsent'⟩ := padLoop_forbidden (a := a) (n := n) (l := l) (f := s.env.rxAt 7)
    (s := ({ s with sel := ⟨false, false⟩, env := (s.env.withDreq ds).dropRx 8 }.fetched (s.env.rxAt 6)
      (s.env.rxAt 7)).log es) rfl hj hv hf hg
  refine ⟨es ++ es', e, ?_, ?_⟩
  · rw [State.fetched] at hloop
    simp only [sendPadding, hfetch, bind_done, ceilDiv_chunk, hl]
    rw [hloop, ← log_log]
    rfl
  · rw [sentOf_append, hsent, hsent', List.append_assoc]
    rfl

/-- Settles O47: `sendPadding_forbidden` as the command's response. -/
theorem padStopsAtAForbiddenChunk : Obligations.PadStopsAtAForbiddenChunk := by
  intro s a n j hw hd hj hv hf hg
  obtain ⟨es, e, hrun, hsent⟩ := sendPadding_forbidden hw hd hj hv hf hg
  refine ⟨_, exec_pad_of_done hrun, ?_, rfl⟩
  rw [sent_replied, hsent]
  simp only [List.append_assoc]
  rfl

/-! ## The playback (R260, R266) -/

theorem sent_played_refused (u : State) (st : Status) :
    (respond ⟨st, 0, []⟩ (setPlaying false u)).sent = u.sent ++ [Event.play false, Event.resp st.code 0 []] := by
  rw [setPlaying, emit_eq_log, respond_log, sent_replied, List.append_assoc]
  rfl

/-- A playback whose payload transfer is refused after its ready-wait (R260): the preamble, the flag and the wait. -/
theorem exec_play_refused {s : State} {n : Count} {p : List Byte} {st : Status} {j i : Nat} {ds ds' : List Bool}
    (hr : s.env.ReadyAfter j ds) (hc : s.sel.cmd = false)
    (h : openFrame s.cfg.playbackAddr p.length (s.preambled j ds) = .done st
      ({ s.preambled j ds with env := (s.preambled j ds).env.withDreq ds' }.log (waitEvents i))) (hst : st ≠ .ok) :
    ∃ t, exec (.play n p) s = .next t ∧
      t.sent = s.sent ++ [Event.poll true, Event.pin .xdcs .low, Event.xfer 0x00#8 0, Event.xfer 0x00#8 0,
        Event.pin .xdcs .high, Event.play true, Event.poll true, Event.play false, Event.resp st.code 0 []] ∧
      t = { s with
        sel := ⟨false, false⟩, playing := false, env := t.env, st := ⟨st.code, 0⟩, tr := t.tr, k := s.k + 1 } := by
  refine ⟨_, exec_play_of_done hr hc (playBody_refused (transferOut_refused h hst) hst), ?_, rfl⟩
  calc
    _ = (s.preambled j ds).sent ++ sentOf (waitEvents i) ++ [Event.play false, Event.resp st.code 0 []] :=
      (sent_played_refused _ st).trans (congrArg (· ++ _) (sent_log _ _))
    _ = _ := by
      rw [sent_preambled, sentOf_waitEvents]
      simp only [List.append_assoc]
      rfl

/-- Settles O50: the payload transfer is refused at the address or, where that is valid, at the size. -/
theorem playSkipsAfterAFailedTransfer : Obligations.PlaySkipsAfterAFailedTransfer := by
  intro s n p hc hg hfail
  obtain ⟨j, ds, hr, hg'⟩ := Env.Grants.ready (m := 1) hg
  obtain ⟨i, ds', hr', -⟩ : ∃ i ds', (s.preambled j ds).env.ReadyAfter i ds' ∧ _ := Env.Grants.ready (m := 0) hg'
  cases ha : validAddr s.cfg s.cfg.playbackAddr with
  | false => exact exec_play_refused hr hc (openFrame_invalid hr' ha) (by decide)
  | true =>
    obtain rfl : p = [] := hfail.resolve_left (by simp [ha])
    exact exec_play_refused (p := []) hr hc (openFrame_zero hr' ha) (by decide)

/-! ## What a procedure that ends has run through -/

theorem Res.bind_eq_done {α β : Type} {r : Res α} {f : α → State → Res β} {b : β} {u : State}
    (h : r.bind f = .done b u) : ∃ a v, r = .done a v ∧ f a v = .done b u := by
  cases r with
  | done a v => exact ⟨a, v, rfl, h⟩
  | hung g v => cases h

/-- A command that does not hang has ended its procedure (R20). -/
theorem finish_eq_next {r : Res Reply} {t : State} (h : finish r = .next t) (ht : t.hang = none) :
    ∃ p u, r = .done p u ∧ t = respond p u := by
  cases r with
  | done p u => exact ⟨p, u, rfl, by cases h; rfl⟩
  | hung g u => cases h; cases ht

/-- A procedure's outcome `st`, as the command's response. -/
theorem finish_status_eq_next {r : Res Status} {t : State}
    (h : finish (r.bind fun st s => .done ⟨st, 0, []⟩ s) = .next t) (ht : t.hang = none) :
    ∃ st u, r = .done st u ∧ t = respond ⟨st, 0, []⟩ u := by
  obtain ⟨p, u, hp, rfl⟩ := finish_eq_next h ht
  obtain ⟨st, v, hr, hv⟩ := Res.bind_eq_done hp
  cases hv
  exact ⟨st, u, hr, rfl⟩

theorem Status.code_eq_zero_iff (c : Status) : c.code = 0x00#8 ↔ c = .ok := by
  cases c <;> decide

/-- How the opening of a frame ends (R240, R244, R283): open after its ready-wait, or refused. -/
theorem openFrame_cases {s u : State} {a : Addr} {m : Nat} {st : Status} (h : openFrame a m s = .done st u) :
    ∃ n ds, s.env.ReadyAfter n ds ∧
      (st = .ok ∧ m ≠ 0 ∧ u = { s with sel := ⟨false, true⟩, env := s.env.withDreq ds }.log
          (waitEvents n ++ [Event.pin .xdcs .low]) ∨
        st ≠ .ok ∧ (u = { s with env := s.env.withDreq ds }.log (waitEvents n) ∨
          u = { s with env := s.env.withDreq ds }.log (waitEvents n ++ [Event.diag .arbitrationConflict .xdcs]))) := by
  rcases s.env.ready_or_never with ⟨n, ds, hr⟩ | hn
  · refine ⟨n, ds, hr, ?_⟩
    cases ha : validAddr s.cfg a with
    | false =>
      rw [openFrame_invalid hr ha] at h
      cases h
      exact .inr ⟨by decide, .inl rfl⟩
    | true =>
      rcases eq_or_ne m 0 with rfl | hm
      · rw [openFrame_zero hr ha] at h
        cases h
        exact .inr ⟨by decide, .inl rfl⟩
      · cases hc : s.sel.cmd with
        | true =>
          rw [openFrame_conflict hr ha hm hc] at h
          cases h
          exact .inr ⟨by decide, .inr rfl⟩
        | false =>
          rw [openFrame_free hr ha hm hc] at h
          cases h
          exact .inl ⟨rfl, hm, rfl⟩
  · rw [openFrame_neverReady hn] at h
    cases h

/-! ## The events of a transfer that ends OK (R241, R243) -/

/-- The events of one resync, its false samples left out (R241). -/
def resyncEvents : List Event := [Event.pin .xdcs .high, Event.pin .xdcs .low, Event.poll true]

theorem flowControl_done {i : Nat} {s u : State} (hs : s.sel = ⟨false, true⟩) (h : flowControl i s = .done () u) :
    u.sel = ⟨false, true⟩ ∧ u.cfg = s.cfg ∧
      u.sent = s.sent ++ if i ≠ 0 ∧ i % 32 = 0 then resyncEvents else [] := by
  by_cases hi : i ≠ 0 ∧ i % 32 = 0
  · rw [flowControl, if_pos (by exact hi)] at h
    rcases s.env.ready_or_never with ⟨n, ds, hr⟩ | hn
    · rw [resync_readyAfter hs hr] at h
      cases h
      rw [if_pos hi, sent_log, sentOf_append, sentOf_waitEvents]
      exact ⟨hs, rfl, rfl⟩
    · rw [resync_neverReady hs hn] at h
      cases h
  · rw [flowControl, if_neg (by exact hi)] at h
    cases h
    rw [if_neg hi, List.append_nil]
    exact ⟨hs, rfl, rfl⟩

theorem sent_send (b : Byte) (s : State) : (send b s).sent = s.sent ++ [Event.xfer b 0] :=
  sent_log s [Event.xfer b (s.env.rxAt 0)]

theorem writeBytes_done (p : List Byte) : ∀ {i : Nat} {s u : State}, s.sel = ⟨false, true⟩ →
    writeBytes i p s = .done () u → u.sent = s.sent ++ payloadFrom i p := by
  induction p with
  | nil =>
    intro i s u _ h
    cases h
    exact (List.append_nil _).symm
  | cons b p ih =>
    intro i s u hs h
    obtain ⟨⟨⟩, v, hf, hw⟩ := Res.bind_eq_done h
    obtain ⟨hsel, -, hsent⟩ := flowControl_done hs hf
    rw [ih (s := send b v) hsel hw, sent_send, hsent, payloadFrom_cons, List.append_assoc, List.append_assoc]
    rfl

/-- A transfer in sends what a transfer out of its fill bytes sends (R244). -/
theorem readBytes_done (n : Nat) : ∀ {i : Nat} {d d' : List Byte} {s u : State}, s.sel = ⟨false, true⟩ →
    readBytes n i d s = .done d' u → writeBytes i (List.replicate n s.cfg.txFill) s = .done () u := by
  induction n with
  | zero =>
    intro i d d' s u _ h
    cases h
    rfl
  | succ n ih =>
    intro i d d' s u hs h
    obtain ⟨⟨⟩, v, hf, hr⟩ := Res.bind_eq_done h
    obtain ⟨hsel, hcfg, -⟩ := flowControl_done hs hf
    rw [List.replicate_succ, writeBytes, hf, bind_done, ← hcfg]
    exact ih (s := send v.cfg.txFill v) hsel hr

theorem openFrame_ok {s u : State} {a : Addr} {m : Nat} (h : openFrame a m s = .done .ok u) :
    m ≠ 0 ∧ u.sel = ⟨false, true⟩ ∧ u.cfg = s.cfg ∧ u.sent = s.sent ++ [Event.poll true, Event.pin .xdcs .low] := by
  obtain ⟨n, ds, -, ⟨-, hm, rfl⟩ | ⟨hst, -⟩⟩ := openFrame_cases h
  · rw [sent_log, sentOf_append, sentOf_waitEvents]
    exact ⟨hm, rfl, rfl, rfl⟩
  · exact absurd rfl hst

/-- The header, the payload and the end of a data frame, after its opening (R240, R244). -/
theorem frame_sent {op : Byte} {a : Addr} {p : List Byte} {s v u : State} (hsel : v.sel = ⟨false, true⟩)
    (hsent : v.sent = s.sent ++ [Event.poll true, Event.pin .xdcs .low])
    (hw : writeBytes 0 p (send (hdrAddr v.cfg a) (send op v)) = .done () u) :
    (selectData false u).2.sent = s.sent ++ dataFrame v.cfg op a p := by
  have hclose : (selectData false u).2.sent = u.sent ++ [Event.pin .xdcs .high] := by
    rw [selectData_false, sent_log]
    rfl
  rw [hclose, writeBytes_done p (by exact hsel) hw, sent_send, sent_send, hsent, hdrAddr_eq, dataFrame]
  simp only [List.append_assoc]
  rfl

theorem transferOut_done {a : Addr} {p : List Byte} {s u : State} (h : transferOut a p s = .done .ok u) :
    p.length ≠ 0 ∧ u.sent = s.sent ++ dataFrame s.cfg s.cfg.opDataWrite a p := by
  obtain ⟨st, v, ho, hf⟩ := Res.bind_eq_done h
  cases st with
  | ok =>
    obtain ⟨⟨⟩, w, hw, hu⟩ := Res.bind_eq_done hf
    cases hu
    obtain ⟨hm, hsel, hcfg, hsent⟩ := openFrame_ok ho
    exact ⟨hm, hcfg ▸ frame_sent hsel hsent hw⟩
  | _ => cases hf

theorem transferIn_done {a : Addr} {n : Nat} {d : List Byte} {s u : State} (h : transferIn a n s = .done (.ok, d) u) :
    n ≠ 0 ∧ u.sent = s.sent ++ dataFrame s.cfg s.cfg.opDataRead a (List.replicate n s.cfg.txFill) := by
  obtain ⟨st, v, ho, hf⟩ := Res.bind_eq_done h
  cases st with
  | ok =>
    obtain ⟨d', w, hr, hu⟩ := Res.bind_eq_done hf
    cases hu
    obtain ⟨hm, hsel, hcfg, hsent⟩ := openFrame_ok ho
    have hw := readBytes_done n (by exact hsel) hr
    exact ⟨hm, hcfg ▸ frame_sent hsel hsent hw⟩
  | _ => cases hf

/-- A transfer of `m` bytes that ends OK has sent one data frame of `m` bytes (R240, R244). -/
theorem exec_transfer_ok {i : Instr} {a : Addr} {m : Nat} {s t : State} (hi : Instr.Transfers i a m)
    (h : exec i s = .next t) (ht : t.hang = none) (hst : t.st.status = 0x00#8) :
    m ≠ 0 ∧ ∃ op p d, p.length = m ∧ t.sent = s.sent ++ dataFrame s.cfg op a p ++ [Event.resp 0x00#8 0 d] := by
  rcases hi with ⟨n, p, rfl, rfl⟩ | ⟨n, rfl, rfl⟩
  · obtain ⟨st, u, hr, rfl⟩ := finish_status_eq_next h ht
    obtain rfl := (Status.code_eq_zero_iff st).1 hst
    obtain ⟨hp, hsent⟩ := transferOut_done hr
    refine ⟨hp, s.cfg.opDataWrite, p, [], rfl, ?_⟩
    rw [respond_eq_replied, sent_replied, hsent, sentOf_nil, List.append_nil]
    rfl
  · obtain ⟨q, v, hq, rfl⟩ := finish_eq_next h ht
    obtain ⟨⟨st, d⟩, u, hr, hu⟩ := Res.bind_eq_done hq
    cases hu
    obtain rfl := (Status.code_eq_zero_iff st).1 hst
    obtain ⟨hn, hsent⟩ := transferIn_done hr
    refine ⟨hn, s.cfg.opDataRead, List.replicate n.toNat s.cfg.txFill, d, List.length_replicate, ?_⟩
    rw [respond_eq_replied, sent_replied, hsent, sentOf_nil, List.append_nil]
    rfl

/-! ### Counting the events of a frame -/

/-- `q` does not tell an event from what it sends. -/
def SeesSent (q : Event → Bool) : Prop := ∀ e, (e.sent.map q).getD false = q e

theorem SeesSent.countP {q : Event → Bool} (hq : SeesSent q) (es : List Event) :
    (sentOf es).countP q = es.countP q := by
  rw [sentOf, List.countP_filterMap]
  exact congrArg (List.countP · es) (funext hq)

/-- What is sent leaves out the false samples and the received bytes, and nothing else. -/
theorem seesSent_of {q : Event → Bool} (hpoll : q (.poll false) = false)
    (hxfer : ∀ b c, q (.xfer b c) = q (.xfer b 0)) : SeesSent q := fun e => by
  cases e with
  | poll v => cases v with
    | false => exact hpoll.symm
    | true => rfl
  | xfer b c => exact (hxfer b c).symm
  | _ => rfl

/-- The payload of a frame: the events of its resyncs, and those of its bytes. -/
theorem countP_payloadFrom (q : Event → Bool) (p : List Byte) : ∀ i, (payloadFrom i p).countP q =
    resyncs i p.length * resyncEvents.countP q + p.countP fun b => q (.xfer b 0) := by
  induction p with
  | nil => intro i; simp [payloadFrom, resyncs]
  | cons b p ih =>
    intro i
    rw [payloadFrom_cons, List.countP_append, List.countP_cons, ih, List.length_cons, resyncs_succ, List.countP_cons]
    split
    · rw [Nat.add_mul, resyncEvents]
      omega
    · simp
      omega

/-- R243: the events of a data frame are those of its `floor((n - 1) / 32)` resyncs, of its payload, and the others. -/
theorem countP_dataFrame (q : Event → Bool) (c : Cfg) (op : Byte) (a : Addr) (p : List Byte) :
    (dataFrame c op a p).countP q = (p.length - 1) / 32 * resyncEvents.countP q + (p.countP fun b => q (.xfer b 0)) +
      [Event.poll true, Event.pin .xdcs .low, Event.xfer op 0,
        Event.xfer ((c.hdrAddr.lookup a).getD (BitVec.ofNat 8 a.toNat)) 0, Event.pin .xdcs .high].countP q := by
  have hp : (payloadEvents p).countP q = _ := countP_payloadFrom q p 0
  rw [dataFrame, List.countP_append, List.countP_append, hp, resyncs_zero]
  simp only [List.countP_cons, List.countP_nil]
  omega

/-- The events of a command, as what it has sent tells them. -/
theorem exec_sent {i : Instr} {s t : State} (h : exec i s = .next t) :
    ∃ es, t.trace = s.trace ++ es ∧ t.sent = s.sent ++ sentOf es := by
  obtain ⟨u, l, hm, ht⟩ := exec_endsIn h
  obtain ⟨es, htr, -⟩ := hm.counted ht
  exact ⟨es, htr, by rw [State.sent, htr, List.filterMap_append]; rfl⟩

/-- Settles O44: the counts of the one frame a successful transfer sends, among the events of the command. -/
theorem transferResyncCounts : Obligations.TransferResyncCounts := by
  intro s t i m hi _ he ht hst
  obtain ⟨a, hi⟩ : ∃ a, Instr.Transfers i a m := by
    rcases hi with ⟨a, n, p, h⟩ | ⟨a, n, h⟩
    · exact ⟨a, .inl ⟨n, p, h⟩⟩
    · exact ⟨a, .inr ⟨n, h⟩⟩
  obtain ⟨hm, op, p, d, hlen, hframe⟩ := exec_transfer_ok hi he ht hst
  obtain ⟨es, htrace, hsent⟩ := exec_sent he
  rw [hsent, List.append_assoc] at hframe
  have hes : sentOf es = _ := List.append_cancel_left hframe
  have hcount (q : Event → Bool) (hpoll : q (.poll false) = false) (hxfer : ∀ b c, q (.xfer b c) = q (.xfer b 0)) :
      es.countP q = (dataFrame s.cfg op a p).countP q + [Event.resp 0x00#8 0 d].countP q := by
    rw [← (seesSent_of hpoll hxfer).countP, hes, List.countP_append]
  simp only [countP_dataFrame, hlen] at hcount
  refine ⟨Nat.pos_of_ne_zero hm, es, htrace, (hcount _ rfl fun _ _ => rfl).trans ?_,
    (hcount _ rfl fun _ _ => rfl).trans ?_, (hcount _ rfl fun _ _ => rfl).trans ?_,
    (hcount _ rfl fun _ _ => rfl).trans ?_⟩
  · simp [resyncEvents]
  · simp [resyncEvents]
  · rw [Nat.add_comm 1]
    simp [resyncEvents]
  · simp [resyncEvents, List.countP_cons, hlen]

/-! ## The playing flag and the drain (R260, R265) -/

theorem exec_play_conflict {s : State} {n : Count} {p : List Byte} {m : Nat} {ds : List Bool}
    (hr : s.env.ReadyAfter m ds) (hc : s.sel.cmd = true) :
    exec (.play n p) s = .next ({ s with env := s.env.withDreq ds }.replied 0x01#8 0 []
      (waitEvents m ++ [Event.diag .arbitrationConflict .xdcs])) := by
  rw [exec, execPlay, startPlayback, waitReady_readyAfter hr, bind_done,
    selectData_true_conflict (by exact hc), log_log]
  exact congrArg Host.Outcome.next (respond_log ..)

/-- A playback that ends and was not refused has run its body, and cleared the flag after it. -/
theorem exec_play_done {s t : State} {n : Count} {p : List Byte} (h : exec (.play n p) s = .next t)
    (ht : t.hang = none) (hc : s.sel.cmd = false) : ∃ j ds st u,
      playBody p (s.preambled j ds) = .done st u ∧ t = respond ⟨st, 0, []⟩ (setPlaying false u) := by
  obtain ⟨st, w, hrun, rfl⟩ := finish_status_eq_next h ht
  rcases s.env.ready_or_never with ⟨j, ds, hr⟩ | hn
  · rw [startPlayback_free hr hc] at hrun
    obtain ⟨st', u, hbody, hend⟩ := Res.bind_eq_done hrun
    cases hend
    exact ⟨j, ds, st, u, hbody, rfl⟩
  · rw [startPlayback, waitReady_neverReady hn] at hrun
    cases hrun

/-- The last event of the trace is a delay. -/
def State.EndsInDelay (s : State) : Prop := ∃ us, s.tr.head? = some (.delay us)

theorem log_concat_endsInDelay {s : State} {es : List Event} {e : Event} (h : (s.log (es ++ [e])).EndsInDelay) :
    ∃ us, e = .delay us := by
  obtain ⟨us, h⟩ := h
  exact ⟨us, by simpa using h⟩

/-- A transfer ends with a sample, a conflict or the release of its line (R240, R283). -/
theorem transferOut_notEndsInDelay {a : Addr} {p : List Byte} {s u : State} {st : Status}
    (h : transferOut a p s = .done st u) : ¬ u.EndsInDelay := by
  intro hu
  obtain ⟨st', v, ho, hf⟩ := Res.bind_eq_done h
  cases st' with
  | ok =>
    obtain ⟨⟨⟩, w, -, hw⟩ := Res.bind_eq_done hf
    cases hw
    rw [selectData_false] at hu
    obtain ⟨us, ⟨⟩⟩ := log_concat_endsInDelay (es := []) hu
  | _ =>
    cases hf
    obtain ⟨n, ds, -, ⟨hok, -⟩ | ⟨-, rfl | rfl⟩⟩ := openFrame_cases ho
    · cases hok
    · obtain ⟨us, ⟨⟩⟩ := log_concat_endsInDelay hu
    · obtain ⟨us, ⟨⟩⟩ := log_concat_endsInDelay hu

/-- With data-select inactive a fill fetch that fails has done no event: WRAM_ADDR is not writable (R255). -/
theorem fetchFill_failed {s u : State} {st : Status} {f : Byte} (hd : s.sel.data = false)
    (h : fetchFill s = .done (st, f) u) (hst : st ≠ .ok) : u.tr = s.tr := by
  cases hw : writable s.cfg .wramAddr with
  | false =>
    rw [fetchFill_refused (commitReg_notWritable (by exact hw)) (by decide)] at h
    cases h
    rfl
  | true =>
    by_cases hg : s.env.Grants 1
    · obtain ⟨es, ds, hrun, -⟩ := fetchFill_spec (m := 0) hw hd hg
      rw [hrun] at h
      cases h
      exact absurd rfl hst
    · have hcommit := commitReg_free (s := s.setReg .wramAddr s.cfg.fillAddr) hw hd
      have hn : s.env.NeverReady := s.env.neverReady_iff.2 hg
      simp only [fetchFill, hcommit] at h
      rw [readReg_neverReady (by exact hn)] at h
      cases h

theorem padLoop_failed {a : Addr} {n : Nat} {f : Byte} (l : Nat) : ∀ {k : Nat} {s u : State} {st : Status},
    padLoop a n f l k s = .done st u → st ≠ .ok → ¬ u.EndsInDelay := by
  induction l with
  | zero =>
    intro k s u st h hst
    cases h
    exact absurd rfl hst
  | succ l ih =>
    intro k s u st h hst
    obtain ⟨st', v, hout, hrest⟩ := Res.bind_eq_done h
    cases st' with
    | ok => exact ih hrest hst
    | _ =>
      cases hrest
      exact transferOut_notEndsInDelay hout

theorem sendPadding_failed {a : Addr} {n : Nat} {s u : State} {st : Status} (hd : s.sel.data = false)
    (hs : ¬ s.EndsInDelay) (h : sendPadding a n s = .done st u) (hst : st ≠ .ok) : ¬ u.EndsInDelay := by
  obtain ⟨⟨st', f⟩, v, hfetch, hrest⟩ := Res.bind_eq_done h
  cases st' with
  | ok => exact padLoop_failed _ hrest hst
  | _ =>
    cases hrest
    rwa [State.EndsInDelay, fetchFill_failed hd hfetch (by decide)]

/-- A playback body answers OK exactly where the drain is the last it has done (R260). -/
theorem playBody_ok_iff {p : List Byte} {s u : State} {st : Status} (h : playBody p s = .done st u) :
    st = .ok ↔ u.tr.head? = some (.delay 50000) := by
  obtain ⟨st', v, hout, hrest⟩ := Res.bind_eq_done h
  have hv := transferOut_notEndsInDelay hout
  have hsat := transferOut_sat (A := ⟨[], true, false, false⟩) rfl s.cfg.playbackAddr p s
  rw [hout] at hsat
  cases st' with
  | ok =>
    obtain ⟨-, ⟨-, hsel⟩ | ⟨hne, -⟩⟩ := hsat
    · obtain ⟨st'', w, hpad, hdrain⟩ := Res.bind_eq_done hrest
      cases st'' with
      | ok =>
        cases hdrain
        exact iff_of_true rfl rfl
      | _ =>
        cases hdrain
        exact iff_of_false (by decide) fun hu => sendPadding_failed (by rw [hsel]) hv hpad (by decide) ⟨_, hu⟩
    · simp at hne
  | _ =>
    cases hrest
    exact iff_of_false (by decide) fun hu => hv ⟨_, hu⟩

/-- A playback body writes no flag (R265). -/
theorem playBody_noPlay {p : List Byte} {s u : State} {st : Status} (h : playBody p s = .done st u) :
    ∃ es, u.trace = s.trace ++ es ∧ es.filter Event.isPlay = [] := by
  have hsat := playBody_sat (A := ⟨[.wramAddr, .wramData], true, false, false⟩) rfl (fun _ h => h) p s
  rw [h] at hsat
  obtain ⟨es, htrace, -, -, hplay, -⟩ := hsat.1.events
  exact ⟨es, htrace, List.filter_eq_nil_iff.2 (List.countP_eq_zero.1 (hplay rfl).2)⟩

theorem filter_isPlay_waitEvents (n : Nat) : (waitEvents n).filter Event.isPlay = [] := by
  simp [waitEvents]

/-- Up to its body, a playback has written the flag once (R260). -/
theorem preambled_trace (s : State) (j : Nat) (ds : List Bool) :
    ∃ es, (s.preambled j ds).trace = s.trace ++ es ∧ es.filter Event.isPlay = [.play true] := by
  refine ⟨_, trace_log .., ?_⟩
  rw [List.filter_append, filter_isPlay_waitEvents]
  rfl

/-- Settles O51: the body writes no flag, and its last event, the third from the command's end, is the drain exactly
where it answers OK. -/
theorem playOwnsThePlayingFlag : Obligations.PlayOwnsThePlayingFlag := by
  refine fun s n p => ⟨fun m ds => exec_play_conflict, fun t _ hc he ht => ?_⟩
  obtain ⟨j, ds, st, u, hbody, rfl⟩ := exec_play_done he ht hc
  obtain ⟨pre, hpre, hflag⟩ := preambled_trace s j ds
  obtain ⟨es, hes, hnone⟩ := playBody_noPlay hbody
  have hflags : (pre ++ es).filter Event.isPlay = [.play true] := by
    rw [List.filter_append, hflag, hnone, List.append_nil]
  obtain ⟨l, x, hl⟩ : ∃ l x, pre ++ es = l ++ [x] :=
    (List.eq_nil_or_concat' (pre ++ es)).resolve_left fun h => by simp [h] at hflags
  have htrace : u.trace = s.trace ++ (l ++ [x]) := by
    rw [hes, hpre, ← hl, List.append_assoc]
  have hlast : u.tr.head? = some x := by
    rw [← trace_getLast?, htrace, ← List.append_assoc, List.getLast?_concat]
  refine ⟨rfl, l ++ [x, Event.play false, Event.resp st.code 0 []], ?_, ?_, ?_⟩
  · rw [trace_respond, setPlaying, trace_emit, List.append_assoc]
    exact (congrArg (· ++ _) htrace).trans (by simp)
  · rw [← List.singleton_append, ← List.append_assoc, ← hl, List.filter_append, hflags]
    rfl
  · have hdrop : (l ++ [x, Event.play false, Event.resp st.code 0 []]).drop
        ((l ++ [x, .play false, .resp st.code 0 []]).length - 3) = [x, .play false, .resp st.code 0 []] := by simp
    rw [hdrop, respond_st]
    simp only [Status.code_eq_zero_iff, playBody_ok_iff hbody, hlast, List.mem_cons, Option.some.injEq, reduceCtorEq,
      List.not_mem_nil, or_false]
    exact eq_comm

end Sys2Proof.Machine

/-! # The proofs for spec/60_exceptions.md: no command traps, and the codes a command may end with -/

namespace Sys2Proof.Machine

/-! ## No command traps (R20, R22, R284, R285) -/

/-- A command is run or rejected: either way there is a next state. -/
theorem runCommand_next (c : Command) (s : State) : ∃ t, runCommand c s = .next t := by
  cases hd : decode c with
  | ok i =>
    rw [runCommand_decoded hd]
    exact exec_next i s
  | error e => exact ⟨_, runCommand_rejected (fun i hi => by rw [hd] at hi; cases hi) s⟩

/-- Under a well-formed configuration a step has one of the three next states: of a hang, of a wait, of a command. -/
theorem step_next {s : State} (hw : s.cfg.wf = true) : ∃ t, step s = .next t := by
  cases hh : s.hang with
  | some g => exact ⟨_, step_hung hw hh⟩
  | none =>
    cases hi : s.inbox with
    | nil => exact ⟨_, step_waiting hw hh hi⟩
    | cons c cs =>
      rw [step_command hw hh hi]
      exact runCommand_next c _

/-- Settles O9: every instruction ends or hangs (`exec_ends`), and every case of a step but the refusal answers. -/
theorem noCommandTraps : Obligations.NoCommandTraps :=
  ⟨exec_next, fun _ => step_next⟩

/-! ## The response of a command (R13, R280, R282) -/

/-- A command that does not hang has answered, after moves that leave the response to its end. -/
theorem exec_responds {i : Instr} {s t : State} (he : exec i s = .next t) (ht : t.hang = none) :
    ∃ u p, Moves (Instr.allowed i) s u ∧ t = respond p u ∧
      (s.cfg.wf = true → p.status.code ∈ i.mayAnswer s.cfg) ∧ (p.status ≠ .ok → p.value = 0 ∧ p.data = []) ∧
      ((∀ a n, i ≠ .xin a n) → p.data = []) := by
  obtain ⟨u, hm, ⟨p, hp, hcode, hfail, hdata, -⟩ | ⟨g, hg, -⟩⟩ := exec_ends i s
  · rw [he] at hp
    injection hp with hp
    exact ⟨u, p, hm, hp, hcode, hfail, hdata⟩
  · rw [he] at hg
    cases hg
    cases ht

/-- Settles O24: the response of `exec_responds`, after the events of the command's moves. -/
theorem commandResponses : Obligations.CommandResponses := by
  intro i s t hw _ he ht
  obtain ⟨u, p, hm, rfl, hcode, hfail, hdata⟩ := exec_responds he ht
  obtain ⟨es, hes, -⟩ := hm.events
  refine ⟨hcode hw, es, p.data, ?_, fun h => hfail (Status.ne_ok_of_code_ne_zero h), hdata⟩
  rw [trace_respond, hes]
  rfl

end Sys2Proof.Machine
